-- ==== Sys2Proof/Word.lean ====
section
/-! DEFINITION. The word types of the MPB: a byte of memory, a 32-bit register word, a 64-bit command word. -/

namespace Sys2Proof

/-- One byte on the byte-read port (20_memory.md R50). -/
abbrev Byte := BitVec 8

/-- What the register read port returns (10_state.md R40); also the cell every `SIZE_W` or `ADDR_W` register
is kept in, with the bits above its width 0 (log 12). -/
abbrev Word := BitVec 32

/-- A command word `CMD[63:0]` (30_encoding.md R70). -/
abbrev Cmd := BitVec 64

end Sys2Proof
end

