-- ==== Sys2Proof/Config.lean ====
section
/-! DEFINITION. What an implementation fixes (the parameters of 00_scope.md R8), the names of the command errors
(60_exceptions.md R151), and the one free value of the machine (20_memory.md R65). -/

namespace Sys2Proof

/-- The two implementation parameters (00_scope.md R8). A machine's parameters never change; every state carries
them, so that a statement about all states holds for all parameters (log 1, DESIGN CHOICE, safe). -/
structure Params where
  /-- `SIZE_W`: the width of the platform size type. -/
  sizeW : Nat
  /-- `ADDR_W`: the width of a byte address. -/
  addrW : Nat
  deriving DecidableEq, Repr

/-- The legal values of R8: `SIZE_W` is 16 to 32 and `ADDR_W` is 1 to 32. -/
abbrev Params.Legal (p : Params) : Prop :=
  16 ≤ p.sizeW ∧ p.sizeW ≤ 32 ∧ 1 ≤ p.addrW ∧ p.addrW ≤ 32

/-- The values that the spec's vectors take (R8). -/
def Params.std : Params := { sizeW := 32, addrW := 32 }

/-- The four command errors (60_exceptions.md R151). Not Lean faults: raising one answers a next state (R152). -/
inductive CmdError where
  /-- `E_ILLEGAL`: `OPC` is not assigned. Raised by decoding. -/
  | illegal
  /-- `E_RSV`: a reserved bit is 1. Raised by decoding. -/
  | rsv
  /-- `E_NOCUR`: there is no cursor. Raised by CUR_READ and CUR_FOFF. -/
  | noCur
  /-- `E_NOBUF`: the buffer pointer is absent. Raised by CUR_INIT. -/
  | noBuf
  deriving DecidableEq, Repr

/-- The byte that the port returns at buffer index `index` when the host writes that byte during the command
numbered `draw`: "any value (a draw)" (20_memory.md R65, U6). It has no body, so no proof can know it (log 5, safe). -/
opaque Config.racedByte : (draw index : Nat) → Byte

end Sys2Proof
end

