-- ==== Sys2Proof/Machine/State.lean ====
section
/-! DEFINITION. The state of the MPB (10_state.md R20 to R42), as plain data; what the host can do to it; the
reasons a step could stop; the state after reset (R42, R170). -/

namespace Sys2Proof.Machine

/-- The host's byte memory (20_memory.md R50): (address, byte) pairs in the canonical form of `Memory.wf`. -/
abbrev Memory := List Host.Cell

/-- What reaches the MPB from outside, one event at a time (00_scope.md R17; log 2). -/
inductive HostEvent where
  /-- A command word on the command port (30_encoding.md R70), with the bytes that the host writes while the
  command runs (20_memory.md R65); a host that keeps its duty writes none. -/
  | command (word : Cmd) (during : List Host.Cell)
  /-- A host write to one byte of its memory between commands (R65, 70_reset_and_hazards.md R175). -/
  | write (cell : Host.Cell)
  /-- A pulse of the reset input, which is taken only between commands (R170). -/
  | reset
  deriving DecidableEq, Repr

/-- Why the machine could stop with a fault: never. Nothing in the MPB is fatal (60_exceptions.md R153), it has no
traps (R156), and no memory request faults (20_memory.md R53), so no meaning raises a fault (log 10). -/
inductive Fault where
  deriving DecidableEq, Repr

/-- Why a step could be refused. -/
inductive Refusal where
  /-- Raised by an arm of `exec` for an instruction without a meaning, of which there is none. Safe: it stops. -/
  | notModelled (mnemonic : String)
  deriving DecidableEq, Repr

/-- All the state of the machine. -/
structure State where
  /-- `SIZE_W` and `ADDR_W` (00_scope.md R8); no step changes them (log 1). -/
  params : Params
  /-- `BUF_BASE`, `ADDR_W` bits (R22). -/
  bufBase : Word
  /-- `BUF_NULL` (R23). -/
  bufNull : Bool
  /-- `BUF_LEN`, `SIZE_W` bits (R24). -/
  bufLen : Word
  /-- `CUR_BASE`, `ADDR_W` bits (R25). -/
  curBase : Word
  /-- `CUR_LEN`, `SIZE_W` bits (R25). -/
  curLen : Word
  /-- `CUR_BYTE`, `SIZE_W` bits (R26). -/
  curByte : Word
  /-- `CUR_BIT`, 0 to 7 (R27, C1). -/
  curBit : BitVec 3
  /-- `CUR_VALID` (R28). -/
  curValid : Bool
  /-- `RES` (R31). -/
  res : Word
  /-- `SZ_VAL`, `SIZE_W` bits (R32). -/
  szVal : Word
  /-- `SZ_OVF` (R32). -/
  szOvf : Bool
  /-- `HDR_FLAGS` (R33). -/
  hdrFlags : Byte
  /-- `HDR_WIDTH` (R33). -/
  hdrWidth : BitVec 16
  /-- `HDR_HEIGHT` (R33). -/
  hdrHeight : BitVec 16
  /-- `HDR_OK` (R34). -/
  hdrOk : Bool
  /-- `HDR_CONS`, `SIZE_W` bits (R34). -/
  hdrCons : Word
  /-- `ERR` (R35). -/
  err : Bool
  /-- `ERRCODE` (R35). -/
  errCode : BitVec 4
  /-- The host's memory (20_memory.md R50). -/
  mem : Memory
  /-- The model's own: the host's events not yet taken, oldest first (log 2). -/
  inbox : List HostEvent
  /-- The model's own: the addresses that the host writes while the present command runs (R65; log 5). -/
  racing : List Nat
  /-- The model's own: numbers the commands, so that the draws of R65 are fresh (log 6). -/
  draws : Nat
  /-- The model's own: the addresses that the last accepted command requested on the byte-read port, in order
  (log 7). -/
  portLog : List Nat
  deriving DecidableEq, Repr

/-- The machine right after reset (R42, R170), at the parameters of the spec's vectors, with nothing in memory
and no event pending. -/
def State.reset : State where
  params    := Params.std
  bufBase   := 0#32
  bufNull   := true
  bufLen    := 0#32
  curBase   := 0#32
  curLen    := 0#32
  curByte   := 0#32
  curBit    := 0#3
  curValid  := false
  res       := 0#32
  szVal     := 0#32
  szOvf     := false
  hdrFlags  := 0#8
  hdrWidth  := 0#16
  hdrHeight := 0#16
  hdrOk     := false
  hdrCons   := 0#32
  err       := false
  errCode   := 0#4
  mem       := []
  inbox     := []
  racing    := []
  draws     := 0
  portLog   := []

end Sys2Proof.Machine
end

