-- ==== Sys2Proof/Machine/Operands.lean ====
section
/-! DEFINITION. The fixed constants of 00_scope.md R10, the widths of values on their way into a register, and the
addresses of a buffer's bytes. Every operand of a command is an immediate field, taken from its word in Decode.lean. -/

namespace Sys2Proof.Machine

/-- `SIZE_MAX = 2^SIZE_W - 1` (R8; PRESUMED by the spec itself, K1; log 14). -/
def sizeMax (p : Params) : Nat := 2 ^ p.sizeW - 1

/-- `HDR_SIZE`, in bytes (R10). -/
def hdrSize : Nat := 8

/-- `SIG`: the bytes of "MMR" (R10, R130). -/
def sigBytes : List Byte := [0x4D#8, 0x4D#8, 0x52#8]

/-- `MIN_IS_BLACK`: the mask of flag bit 0 of a header (R10, 42_header.md R133). -/
def minIsBlack : Byte := 0x01#8

/-- `STRIPPED`: the mask of flag bit 1 of a header (R10, R133). -/
def stripped : Byte := 0x02#8

/-- `MAX_FIELD`: the widest field a read returns, in bits (R10). -/
def maxField : Nat := 32

/-- The low `width` bits of a value, in a 32-bit cell: what a register of that width holds after the write
`REG <- v[width-1:0]` (00_scope.md R11; log 12). -/
def lowBits (width v : Nat) : Word := BitVec.ofNat 32 (v % 2 ^ width)

/-- An address on the memory port: modulo `2^ADDR_W` (00_scope.md R13). -/
def portAddr (p : Params) (a : Nat) : Nat := a % 2 ^ p.addrW

/-- The address of the byte at index `i` of the buffer at `base` (20_memory.md R52). -/
def byteAddr (p : Params) (base : Word) (i : Nat) : Nat := portAddr p (base.toNat + i)

end Sys2Proof.Machine
end

