-- ==== Sys2Proof/Machine/Flags.lean ====
section
/-! DEFINITION. How the status bits that a command computes come about: the overflow sentinel of 40_size.md R100
and the rounding of `full_offset()` (41_cursor.md R114). -/

namespace Sys2Proof.Machine

/-- A size result overflows when it is above `SIZE_MAX`; a value equal to it does not (R100). -/
def sizeOverflows (p : Params) (v : Nat) : Bool := decide (sizeMax p < v)

/-- The exact product `W * H` (R101, R103). -/
def rasterSize (w h : BitVec 16) : Nat := w.toNat * h.toNat

/-- SIZE_ENC overflows when the product does, or when the product and the header together do (R102). -/
def encOverflows (p : Params) (w h : BitVec 16) : Bool :=
  sizeOverflows p (rasterSize w h) || sizeOverflows p (rasterSize w h + hdrSize)

/-- `full_offset()`: the consumed bytes, a partly consumed one counted (R114, R131). -/
def fullOffset (byte bit : Nat) : Nat := byte + (if bit ≠ 0 then 1 else 0)

end Sys2Proof.Machine
end

