-- ==== Sys2Proof/Machine/Ops.lean ====
section
/-! DEFINITION. The operations that the meanings share: memory and its byte-read port, reading a field of bits
(41_cursor.md R113), raising a command error and clearing it (60_exceptions.md R152, 43_control.md R140), reset. -/

namespace Sys2Proof.Machine

/-- What a byte that nothing has written reads as. DESIGN CHOICE, unsafe: the spec gives memory no contents and says
that the port always answers with a byte (20_memory.md R53; log 8). -/
def unwritten : Byte := 0x00#8

/-- The byte at address `a`. -/
def Memory.read (m : Memory) (a : Nat) : Byte :=
  match m with
  | []             => unwritten
  | (x, b) :: rest => if a = x then b else Memory.read rest a

/-- The host's write of one byte, kept in the canonical form. -/
def Memory.write (m : Memory) (a : Nat) (v : Byte) : Memory :=
  match m with
  | [] => if v = unwritten then [] else [(a, v)]
  | (x, b) :: rest =>
    if a < x then (if v = unwritten then (x, b) :: rest else (a, v) :: (x, b) :: rest)
    else if a = x then (if v = unwritten then rest else (a, v) :: rest)
    else (x, b) :: Memory.write rest a v

/-- The canonical form above an address: addresses strictly rise from `lo` on, and no entry holds what an unlisted
address reads as. -/
def Memory.wfFrom (lo : Nat) (m : Memory) : Bool :=
  match m with
  | []             => true
  | (x, b) :: rest => decide (lo ≤ x) && decide (b ≠ unwritten) && Memory.wfFrom (x + 1) rest

/-- The canonical form of a memory: equal contents are equal lists. -/
def Memory.wf (m : Memory) : Bool := Memory.wfFrom 0 m

/-- Every listed address lies in the address space of `ADDR_W` bits (20_memory.md R50). -/
def Memory.inSpace (p : Params) (m : Memory) : Bool := m.all (fun c => decide (c.1 < 2 ^ p.addrW))

/-- A host write to its memory, at an address taken modulo `2^ADDR_W` (log 4). -/
def hostWrite (p : Params) (m : Memory) (c : Host.Cell) : Memory := Memory.write m (portAddr p c.1) c.2

/-- The host's writes in the order they are given. -/
def hostWrites (p : Params) (m : Memory) (cs : List Host.Cell) : Memory := cs.foldl (hostWrite p) m

/-- `MemRead` of the byte at index `i` of the buffer at `base` (00_scope.md R13, 20_memory.md R52). A byte that the
host writes during the command is any value (R65). -/
def memRead (s : State) (base : Word) (i : Nat) : Byte :=
  if byteAddr s.params base i ∈ s.racing then Config.racedByte s.draws i
  else s.mem.read (byteAddr s.params base i)

/-- The port's record after requests for the bytes at indices `is` of the buffer at `base`. -/
def logReads (s : State) (base : Word) (is : List Nat) : State :=
  { s with portLog := s.portLog ++ is.map (byteAddr s.params base) }

/-- The temporaries of one CUR_READ (R113): the bits still wanted, the position, the running result, and the buffer
indices requested so far. Not state between commands (10_state.md R37). -/
structure Scan where
  n : Nat
  byte : Nat
  bit : Nat
  acc : Word
  reads : List Nat
  deriving DecidableEq, Repr

/-- One turn of the loop of R113: a chunk of `k` bits from the current byte, least significant remaining bits first
(R56), appended below the chunks already read (R57). -/
def chunkStep (fetch : Nat → Byte) (c : Scan) : Scan :=
  let k := min c.n (8 - c.bit)
  let chunk : Byte := (fetch c.byte >>> c.bit) &&& BitVec.ofNat 8 (2 ^ k - 1)
  { n     := c.n - k
    byte  := if c.bit + k = 8 then c.byte + 1 else c.byte
    bit   := if c.bit + k = 8 then 0 else c.bit + k
    acc   := (c.acc <<< k) ||| chunk.setWidth 32
    reads := c.reads ++ [c.byte] }

/-- The loop of R113 over a buffer of `len` bytes. A turn takes at least one bit, so the number of bits wanted is
fuel enough. -/
def scanLoop (fetch : Nat → Byte) (len : Nat) : Nat → Scan → Scan
  | 0,        c => c
  | fuel + 1, c => if 0 < c.n ∧ c.byte < len then scanLoop fetch len fuel (chunkStep fetch c) else c

/-- Read a field of `n` bits at a position, as R113 does for `1 ≤ n ≤ 32`. -/
def readField (fetch : Nat → Byte) (len n byte bit : Nat) : Scan :=
  scanLoop fetch len n { n := n, byte := byte, bit := bit, acc := 0#32, reads := [] }

/-- The private cursor of HDR_DEC (10_state.md R38): its position, and the indices requested so far. -/
structure PrivCursor where
  byte : Nat
  bit : Nat
  reads : List Nat
  deriving DecidableEq, Repr

/-- An 8-bit field, and the private cursor after it. -/
structure ByteRead where
  value : Byte
  cur : PrivCursor
  deriving DecidableEq, Repr

/-- `rd8(c)`: the loop of R113 with `n = 8` on a private cursor over `len` bytes (42_header.md R131). -/
def rd8 (fetch : Nat → Byte) (len : Nat) (c : PrivCursor) : ByteRead :=
  let r := readField fetch len 8 c.byte c.bit
  { value := r.acc.setWidth 8, cur := { byte := r.byte, bit := r.bit, reads := c.reads ++ r.reads } }

/-- The 4-bit codes of `ERRCODE` (R151). -/
def errCodeOf : CmdError → BitVec 4
  | .illegal => 1#4
  | .rsv     => 2#4
  | .noCur   => 3#4
  | .noBuf   => 4#4

/-- TAKING AN EXCEPTION: `raise CmdError(code)` (R152). The first code is kept, and nothing else is written. -/
def raiseCmdError (e : CmdError) (s : State) : State :=
  { s with err := true, errCode := if s.err then s.errCode else errCodeOf e }

/-- THE WAY BACK: the command-error state cleared (R140, R157). There is no return from trap. -/
def clearCmdError (s : State) : State := { s with err := false, errCode := 0#4 }

/-- The reset input between commands (R170): every register as R42 says, and no memory request. The memory is the
host's, the parameters are fixed, and the events still to come stand (log 9). -/
def resetRegisters (s : State) : State :=
  { State.reset with params := s.params, mem := s.mem, inbox := s.inbox, draws := s.draws }

end Sys2Proof.Machine
end

