-- ==== Sys2Proof/Machine/Control.lean ====
section
/-! DEFINITION. The control command (43_control.md). -/

namespace Sys2Proof.Machine

/-- CLR_ERR (R140). -/
def execClrErr (s : State) : Host.Outcome State Fault Refusal := .next (clearCmdError s)

end Sys2Proof.Machine
end

