-- ==== Sys2Proof/Machine/Cursor.lean ====
section
/-! DEFINITION. The buffer description and the Bit Cursor commands (41_cursor.md). -/

namespace Sys2Proof.Machine

/-- BUF_BASE (R110). `BASE` is stored whatever `NULL` is, and the active cursor stays (R25). -/
def execBufBase (base : Word) (null : Bool) (s : State) : Host.Outcome State Fault Refusal :=
  .next { s with bufBase := lowBits s.params.addrW base.toNat, bufNull := null }

/-- BUF_LEN (R111). -/
def execBufLen (len : Word) (s : State) : Host.Outcome State Fault Refusal :=
  .next { s with bufLen := lowBits s.params.sizeW len.toNat }

/-- CUR_INIT (R112). -/
def execCurInit (s : State) : Host.Outcome State Fault Refusal :=
  if s.bufNull then .next (raiseCmdError .noBuf s)
  else .next { s with
    curBase := s.bufBase, curLen := s.bufLen, curByte := 0#32, curBit := 0#3, curValid := true }

/-- The writes of CUR_READ once its loop is done (R113). -/
def writeField (c : Scan) (s : State) : State :=
  logReads { s with
    res := c.acc, curByte := BitVec.ofNat 32 c.byte, curBit := BitVec.ofNat 3 c.bit } s.curBase c.reads

/-- CUR_READ (R113). The end of the buffer raises nothing: the result is the partial accumulation, not shifted
(C3, R179; log 13). -/
def execCurRead (n : BitVec 6) (s : State) : Host.Outcome State Fault Refusal :=
  if s.curValid = false then .next (raiseCmdError .noCur s)
  else if n.toNat = 0 ∨ maxField < n.toNat then .next { s with res := 0#32 }
  else .next (writeField
    (readField (memRead s s.curBase) s.curLen.toNat n.toNat s.curByte.toNat s.curBit.toNat) s)

/-- CUR_FOFF (R114). -/
def execCurFoff (s : State) : Host.Outcome State Fault Refusal :=
  if s.curValid = false then .next (raiseCmdError .noCur s)
  else .next { s with res := BitVec.ofNat 32 (fullOffset s.curByte.toNat s.curBit.toNat) }

end Sys2Proof.Machine
end

