-- ==== Sys2Proof/Machine/Header.lean ====
section
/-! DEFINITION. The Header Decoder command (42_header.md). -/

namespace Sys2Proof.Machine

/-- The `fail` exit of R131: the sentinel, with the output record unchanged. -/
def hdrFail (s : State) : State := { s with hdrOk := false, hdrCons := 0#32 }

/-- The success exit of R131, from the five fields after the signature; width and height are big-endian (R59). -/
def hdrSucceed (f wh wl hh hl : Byte) (s : State) : State :=
  { s with
    hdrFlags := f, hdrWidth := wh ++ wl, hdrHeight := hh ++ hl, hdrCons := BitVec.ofNat 32 hdrSize, hdrOk := true }

/-- A fresh private cursor (R38, R131). -/
def privStart : PrivCursor := { byte := 0, bit := 0, reads := [] }

/-- HDR_DEC (R131): the checks that read nothing; the signature, where a mismatch reads no more; the other five
fields; the `full_offset()` check, kept as the source keeps it (R132). -/
def execHdrDec (noOut : Bool) (s : State) : Host.Outcome State Fault Refusal :=
  if s.bufNull = true ∨ noOut = true ∨ s.bufLen.toNat < hdrSize then .next (hdrFail s)
  else
    let rd := rd8 (memRead s s.bufBase) s.bufLen.toNat
    let s0 := rd privStart
    let s1 := rd s0.cur
    let s2 := rd s1.cur
    if [s0.value, s1.value, s2.value] ≠ sigBytes then .next (hdrFail (logReads s s.bufBase s2.cur.reads))
    else
      let f := rd s2.cur
      let wh := rd f.cur
      let wl := rd wh.cur
      let hh := rd wl.cur
      let hl := rd hh.cur
      let done := logReads s s.bufBase hl.cur.reads
      if fullOffset hl.cur.byte hl.cur.bit ≠ hdrSize then .next (hdrFail done)
      else .next (hdrSucceed f.value wh.value wl.value hh.value hl.value done)

end Sys2Proof.Machine
end

