-- ==== Sys2Proof/Machine/Size.lean ====
section
/-! DEFINITION. The Size Calculator commands (40_size.md). -/

namespace Sys2Proof.Machine

/-- The two registers of a size result: the overflow sentinel, or the size (R100). -/
def writeSize (ovf : Bool) (v : Nat) (s : State) : State :=
  { s with szOvf := ovf, szVal := if ovf then 0#32 else lowBits s.params.sizeW v }

/-- SIZE_DEC (R101). -/
def execSizeDec (w h : BitVec 16) (s : State) : Host.Outcome State Fault Refusal :=
  .next (writeSize (sizeOverflows s.params (rasterSize w h)) (rasterSize w h) s)

/-- SIZE_ENC (R102). -/
def execSizeEnc (w h : BitVec 16) (s : State) : Host.Outcome State Fault Refusal :=
  .next (writeSize (encOverflows s.params w h) (rasterSize w h + hdrSize) s)

end Sys2Proof.Machine
end

