-- ==== Sys2Proof/Syntax.lean ====
section
/-! DEFINITION. The commands of the MPB: one constructor for each row of spec/opcode_table.json (30_encoding.md R75). -/

namespace Sys2Proof

/-- A decoded command with its operands (30_encoding.md R72, R73). Every operand is unsigned. -/
inductive Instr where
  /-- CLR_ERR (R140). -/
  | clrErr
  /-- SIZE_DEC W, H (R101). -/
  | sizeDec (w h : BitVec 16)
  /-- SIZE_ENC W, H (R102). -/
  | sizeEnc (w h : BitVec 16)
  /-- BUF_BASE BASE, NULL (R110); `null` says that the buffer pointer is absent. -/
  | bufBase (base : Word) (null : Bool)
  /-- BUF_LEN LEN (R111). -/
  | bufLen (len : Word)
  /-- CUR_INIT (R112). -/
  | curInit
  /-- CUR_READ N (R113); counts 0 and 33 to 63 are degenerate, not reserved (R73). -/
  | curRead (n : BitVec 6)
  /-- CUR_FOFF (R114). -/
  | curFoff
  /-- HDR_DEC NOOUT (R131); `noOut` says that the output slot is absent. -/
  | hdrDec (noOut : Bool)
  deriving DecidableEq, Repr

end Sys2Proof
end

