-- ==== Sys2Proof/Machine/Dispatch.lean ====
section
/-! DEFINITION. The meaning of every command, one arm each. -/

namespace Sys2Proof.Machine

def exec (i : Instr) (s : State) : Host.Outcome State Fault Refusal :=
  match i with
  | .clrErr => Sys2Proof.Machine.execClrErr s
  | .sizeDec w h => Sys2Proof.Machine.execSizeDec w h s
  | .sizeEnc w h => Sys2Proof.Machine.execSizeEnc w h s
  | .bufBase base null => Sys2Proof.Machine.execBufBase base null s
  | .bufLen len => Sys2Proof.Machine.execBufLen len s
  | .curInit => Sys2Proof.Machine.execCurInit s
  | .curRead n => Sys2Proof.Machine.execCurRead n s
  | .curFoff => Sys2Proof.Machine.execCurFoff s
  | .hdrDec noOut => Sys2Proof.Machine.execHdrDec noOut s

end Sys2Proof.Machine
end

