-- ==== Sys2Proof/WellFormed.lean ====
section
/-! DEFINITION. Which instructions have a command word: BASE is an `ADDR_W`-bit address and LEN a `SIZE_W`-bit
length (30_encoding.md R73). The types of Syntax.lean already bound every other operand. -/

namespace Sys2Proof

/-- Every operand fits the field that the parameters leave it (R72, R73, R79). -/
def Instr.wf (p : Params) : Instr → Bool
  | .bufBase base _ => decide (base.toNat < 2 ^ p.addrW)
  | .bufLen len     => decide (len.toNat < 2 ^ p.sizeW)
  | .clrErr         => true
  | .sizeDec _ _    => true
  | .sizeEnc _ _    => true
  | .curInit        => true
  | .curRead _      => true
  | .curFoff        => true
  | .hdrDec _       => true

end Sys2Proof
end

