-- ==== Sys2Proof/Decode.lean ====
section
/-! DEFINITION. Command words: the field layout of 30_encoding.md R70 to R76, the decoder of R77 (total, it rejects
by the name of the command error), the encoder, and the host's view of one table row. -/

namespace Sys2Proof

/-- The nine assigned operation codes (R75). -/
inductive Opcode where
  | clrErr | sizeDec | sizeEnc | bufBase | bufLen | curInit | curRead | curFoff | hdrDec
  deriving DecidableEq, Repr

/-- What a command word stands for: an instruction, or the command error that decoding raises (R77). -/
inductive Decoded where
  | instr (i : Instr)
  | error (e : CmdError)
  deriving DecidableEq, Repr

/-- The value of `OPC` for each operation (R75). -/
def opcByte : Opcode → Byte
  | .clrErr  => 0x01#8
  | .sizeDec => 0x10#8
  | .sizeEnc => 0x11#8
  | .bufBase => 0x20#8
  | .bufLen  => 0x21#8
  | .curInit => 0x30#8
  | .curRead => 0x31#8
  | .curFoff => 0x32#8
  | .hdrDec  => 0x40#8

/-- The operation of an `OPC` value, none where the value is not assigned (R75, R78). -/
def opcodeOf (b : Byte) : Option Opcode :=
  if b = 0x01#8 then some .clrErr
  else if b = 0x10#8 then some .sizeDec
  else if b = 0x11#8 then some .sizeEnc
  else if b = 0x20#8 then some .bufBase
  else if b = 0x21#8 then some .bufLen
  else if b = 0x30#8 then some .curInit
  else if b = 0x31#8 then some .curRead
  else if b = 0x32#8 then some .curFoff
  else if b = 0x40#8 then some .hdrDec
  else none

/-- `CMD[63:0] = IMM ++ RSV ++ SUB ++ OPC` (R70). -/
def packCmd (imm : Word) (rsv : BitVec 16) (sub opc : Byte) : Cmd := imm ++ rsv ++ sub ++ opc

/-- `OPC = CMD[7:0]` (R70). -/
def cmdOpc (w : Cmd) : Byte := w.extractLsb' 0 8

/-- `SUB = CMD[15:8]` (R70). -/
def cmdSub (w : Cmd) : Byte := w.extractLsb' 8 8

/-- `RSV = CMD[31:16]` (R70). -/
def cmdRsv (w : Cmd) : BitVec 16 := w.extractLsb' 16 16

/-- `IMM = CMD[63:32]` (R70). -/
def cmdImm (w : Cmd) : Word := w.extractLsb' 32 32

/-- The bits of `SUB` that must be 0 (R72). -/
def subReserved : Opcode → Byte
  | .bufBase => 0xFE#8
  | .curRead => 0xC0#8
  | .hdrDec  => 0xFE#8
  | .clrErr  => 0xFF#8
  | .sizeDec => 0xFF#8
  | .sizeEnc => 0xFF#8
  | .bufLen  => 0xFF#8
  | .curInit => 0xFF#8
  | .curFoff => 0xFF#8

/-- The bits of `IMM` that must be 0 (R72): above `ADDR_W` for BUF_BASE, above `SIZE_W` for BUF_LEN (R76, R79). -/
def immReserved (p : Params) : Opcode → Word
  | .sizeDec => 0#32
  | .sizeEnc => 0#32
  | .bufBase => BitVec.allOnes 32 <<< p.addrW
  | .bufLen  => BitVec.allOnes 32 <<< p.sizeW
  | .clrErr  => BitVec.allOnes 32
  | .curInit => BitVec.allOnes 32
  | .curRead => BitVec.allOnes 32
  | .curFoff => BitVec.allOnes 32
  | .hdrDec  => BitVec.allOnes 32

/-- The mask of R76: `OPC` and every reserved bit. -/
def maskOf (p : Params) (o : Opcode) : Cmd := packCmd (immReserved p o) 0xFFFF#16 (subReserved o) 0xFF#8

/-- The match of R76: the value of `OPC`, the reserved bits 0. -/
def matchOf (o : Opcode) : Cmd := packCmd 0#32 0#16 0#8 (opcByte o)

/-- The operands of a word whose operation is known (R72): `W = IMM[31:16]`, `H = IMM[15:0]`, `NULL` and `NOOUT` are
`SUB[0]`, `N = SUB[5:0]`. -/
def operandsOf (w : Cmd) : Opcode → Instr
  | .clrErr  => .clrErr
  | .sizeDec => .sizeDec ((cmdImm w).extractLsb' 16 16) ((cmdImm w).extractLsb' 0 16)
  | .sizeEnc => .sizeEnc ((cmdImm w).extractLsb' 16 16) ((cmdImm w).extractLsb' 0 16)
  | .bufBase => .bufBase (cmdImm w) ((cmdSub w).getLsbD 0)
  | .bufLen  => .bufLen (cmdImm w)
  | .curInit => .curInit
  | .curRead => .curRead ((cmdSub w).extractLsb' 0 6)
  | .curFoff => .curFoff
  | .hdrDec  => .hdrDec ((cmdSub w).getLsbD 0)

/-- Decoding a command word, the checks in the order of R77. -/
def decode (p : Params) (w : Cmd) : Decoded :=
  match opcodeOf (cmdOpc w) with
  | none   => .error .illegal
  | some o => if w &&& maskOf p o = matchOf o then .instr (operandsOf w o) else .error .rsv

/-- The operation of an instruction (R75). -/
def opcodeOfInstr : Instr → Opcode
  | .clrErr      => .clrErr
  | .sizeDec _ _ => .sizeDec
  | .sizeEnc _ _ => .sizeEnc
  | .bufBase _ _ => .bufBase
  | .bufLen _    => .bufLen
  | .curInit     => .curInit
  | .curRead _   => .curRead
  | .curFoff     => .curFoff
  | .hdrDec _    => .hdrDec

/-- The `SUB` field of an instruction's word (R72). -/
def encodeSub : Instr → Byte
  | .bufBase _ null => (BitVec.ofBool null).setWidth 8
  | .curRead n      => n.setWidth 8
  | .hdrDec noOut   => (BitVec.ofBool noOut).setWidth 8
  | .clrErr         => 0#8
  | .sizeDec _ _    => 0#8
  | .sizeEnc _ _    => 0#8
  | .bufLen _       => 0#8
  | .curInit        => 0#8
  | .curFoff        => 0#8

/-- The `IMM` field of an instruction's word (R72). -/
def encodeImm : Instr → Word
  | .sizeDec w h    => w ++ h
  | .sizeEnc w h    => w ++ h
  | .bufBase base _ => base
  | .bufLen len     => len
  | .clrErr         => 0#32
  | .curInit        => 0#32
  | .curRead _      => 0#32
  | .curFoff        => 0#32
  | .hdrDec _       => 0#32

/-- The command word of a well-formed instruction (R70, R72, R75). -/
def encode (i : Instr) : Cmd := packCmd (encodeImm i) 0#16 (encodeSub i) (opcByte (opcodeOfInstr i))

/-- The instruction that the decoder reads from the low `nbits` bits of `w`, at the parameters of R76's table
(`SIZE_W = ADDR_W = 32`); a command has exactly 64 bits (R71), so bits past 63 make it none. -/
def decodeTableWord (nbits w : Nat) : Option Instr :=
  if w % 2 ^ nbits < 2 ^ 64 then
    match decode Params.std (BitVec.ofNat 64 (w % 2 ^ nbits)) with
    | .instr i => some i
    | .error _ => none
  else none

end Sys2Proof
end

