-- ==== Sys2Proof/Machine/Ports.lean ====
section
/-! DEFINITION. The ports: accepting and ending a command on the command port (70_reset_and_hazards.md R177,
20_memory.md R65), and the register read port (10_state.md R40, R41). -/

namespace Sys2Proof.Machine

/-- A command is accepted: it leaves the inbox, the port has served no request of it yet, and the addresses that
the host writes during it are known (R65). -/
def beginCmd (during : List Host.Cell) (rest : List HostEvent) (s : State) : State :=
  { s with inbox := rest, portLog := [], racing := during.map (fun c => portAddr s.params c.1) }

/-- A command has completed: the host's writes have landed, and the next command draws anew (R65; log 5, log 6). -/
def endCmd (during : List Host.Cell) (s : State) : State :=
  { s with mem := hostWrites s.params s.mem during, racing := [], draws := s.draws + 1 }

/-- `STATUS` (R41): bit 0 ERR, 7 to 4 ERRCODE, 8 CUR_VALID, 9 BUF_NULL, 10 SZ_OVF, 11 HDR_OK, the rest 0. -/
def statusWord (s : State) : Word :=
  0#20 ++ BitVec.ofBool s.hdrOk ++ BitVec.ofBool s.szOvf ++ BitVec.ofBool s.bufNull ++ BitVec.ofBool s.curValid
    ++ s.errCode ++ 0#3 ++ BitVec.ofBool s.err

/-- `PARAMS` (R41): bits 5 to 0 SIZE_W, 13 to 8 ADDR_W, the rest 0. -/
def paramsWord (s : State) : Word :=
  0#18 ++ BitVec.ofNat 6 s.params.addrW ++ 0#2 ++ BitVec.ofNat 6 s.params.sizeW

/-- The register read port (R40, R41): the 32-bit value at an 8-bit index, zero-extended from the register's width;
an unmapped index reads 0. A read changes nothing, so it is a function of the state (R181; log 18). -/
def readPort (s : State) (index : BitVec 8) : Word :=
  if index = 0x00#8 then statusWord s
  else if index = 0x01#8 then s.res
  else if index = 0x02#8 then lowBits s.params.sizeW s.szVal.toNat
  else if index = 0x03#8 then s.hdrFlags.setWidth 32
  else if index = 0x04#8 then s.hdrWidth.setWidth 32
  else if index = 0x05#8 then s.hdrHeight.setWidth 32
  else if index = 0x06#8 then lowBits s.params.sizeW s.hdrCons.toNat
  else if index = 0x07#8 then lowBits s.params.addrW s.bufBase.toNat
  else if index = 0x08#8 then lowBits s.params.sizeW s.bufLen.toNat
  else if index = 0x09#8 then lowBits s.params.addrW s.curBase.toNat
  else if index = 0x0A#8 then lowBits s.params.sizeW s.curLen.toNat
  else if index = 0x0B#8 then lowBits s.params.sizeW s.curByte.toNat
  else if index = 0x0C#8 then s.curBit.setWidth 32
  else if index = 0x0D#8 then paramsWord s
  else 0#32

end Sys2Proof.Machine
end

