-- ==== Sys2Proof/Machine/Step.lean ====
section
/-! DEFINITION. One step of the machine: one event of the host. -/

namespace Sys2Proof.Machine

/-- The outcome of a command once it has ended on the command port. -/
def endOutcome (during : List Host.Cell) : Host.Outcome State Fault Refusal → Host.Outcome State Fault Refusal
  | .next t    => .next (endCmd during t)
  | .fault r   => .fault r
  | .refused r => .refused r

/-- Decode and run one accepted command word (30_encoding.md R77). -/
def runCmd (w : Cmd) (s : State) : Host.Outcome State Fault Refusal :=
  match decode s.params w with
  | .instr i => exec i s
  | .error e => .next (raiseCmdError e s)

/-- One step: the machine takes the oldest event of the host. With none it is idle and loses no state
(60_exceptions.md R165, R171; log 3). -/
def step (s : State) : Host.Outcome State Fault Refusal :=
  match s.inbox with
  | [] => .next s
  | .reset :: rest => .next (resetRegisters { s with inbox := rest })
  | .write c :: rest => .next { s with inbox := rest, mem := hostWrite s.params s.mem c }
  | .command w during :: rest => endOutcome during (runCmd w (beginCmd during rest s))

/-- The command word put where the machine takes its next command: at the head of the inbox, with no host write
during it (log 2). -/
def State.withFetchWord (s : State) (nbits w : Nat) : State :=
  { s with inbox := .command (BitVec.ofNat 64 (w % 2 ^ nbits)) [] :: s.inbox }

end Sys2Proof.Machine
end

