-- ==== Sys2Proof/Machine/Assembler.lean ====
section
/-! DEFINITION. The assembler of 30_encoding.md R81 and R82: a line of text to the command words it stands for. It
stands in front of the command port and is no part of the step. -/

namespace Sys2Proof.Machine

/-- A statement of the assembler: the spellings and the directive of R81, then the pseudo-instructions of R82. -/
inductive AsmStmt where
  | clrErr
  | sizeDec (w h : Nat)
  | sizeEnc (w h : Nat)
  | bufBase (base : Nat)
  | bufBaseNull (base : Nat)
  | bufLen (len : Nat)
  | curInit
  | curRead (n : Nat)
  | curFoff
  | hdrDec
  | hdrDecNoOut
  | word (v : Nat)
  | bufNull
  | bufSet (base len : Nat)
  | curOpen (base len : Nat)
  | hdrParse (base len : Nat)
  | curSkip (n : Nat)
  deriving DecidableEq, Repr

/-- An instruction's word where its operands are in range, and an assembly error (none) where they are not: the
assembler never truncates (R81). -/
def asmIf (inRange : Bool) (i : Instr) : Option Cmd := if inRange then some (encode i) else none

/-- `size.dec W, H` (R81). -/
def asmSizeDec (w h : Nat) : Option Cmd :=
  asmIf (decide (w < 2 ^ 16 ∧ h < 2 ^ 16)) (.sizeDec (BitVec.ofNat 16 w) (BitVec.ofNat 16 h))

/-- `size.enc W, H` (R81). -/
def asmSizeEnc (w h : Nat) : Option Cmd :=
  asmIf (decide (w < 2 ^ 16 ∧ h < 2 ^ 16)) (.sizeEnc (BitVec.ofNat 16 w) (BitVec.ofNat 16 h))

/-- `buf.base BASE` and `buf.base.null BASE` (R81). -/
def asmBufBase (p : Params) (base : Nat) (null : Bool) : Option Cmd :=
  asmIf (decide (base < 2 ^ p.addrW ∧ base < 2 ^ 32)) (.bufBase (BitVec.ofNat 32 base) null)

/-- `buf.len LEN` (R81). -/
def asmBufLen (p : Params) (len : Nat) : Option Cmd :=
  asmIf (decide (len < 2 ^ p.sizeW ∧ len < 2 ^ 32)) (.bufLen (BitVec.ofNat 32 len))

/-- `cur.read N` (R81). -/
def asmCurRead (n : Nat) : Option Cmd := asmIf (decide (n ≤ 63)) (.curRead (BitVec.ofNat 6 n))

/-- The words of a statement, in order; none is an assembly error (R81, R82). -/
def assemble (p : Params) : AsmStmt → Option (List Cmd)
  | .clrErr         => some [encode .clrErr]
  | .sizeDec w h    => do let a ← asmSizeDec w h; some [a]
  | .sizeEnc w h    => do let a ← asmSizeEnc w h; some [a]
  | .bufBase b      => do let a ← asmBufBase p b false; some [a]
  | .bufBaseNull b  => do let a ← asmBufBase p b true; some [a]
  | .bufLen n       => do let a ← asmBufLen p n; some [a]
  | .curInit        => some [encode .curInit]
  | .curRead n      => do let a ← asmCurRead n; some [a]
  | .curFoff        => some [encode .curFoff]
  | .hdrDec         => some [encode (.hdrDec false)]
  | .hdrDecNoOut    => some [encode (.hdrDec true)]
  | .word v         => if v < 2 ^ 64 then some [BitVec.ofNat 64 v] else none
  | .bufNull        => do let a ← asmBufBase p 0 true; some [a]
  | .bufSet b n     => do let a ← asmBufBase p b false; let c ← asmBufLen p n; some [a, c]
  | .curOpen b n    => do
      let a ← asmBufBase p b false; let c ← asmBufLen p n; some [a, c, encode .curInit]
  | .hdrParse b n   => do
      let a ← asmBufBase p b false; let c ← asmBufLen p n; some [a, c, encode (.hdrDec false)]
  | .curSkip n      => if 1 ≤ n ∧ n ≤ 32 then do let a ← asmCurRead n; some [a] else none

/-- A space or a tab: what may stand around a token (log 17). -/
def isBlank (c : Char) : Bool := c == ' ' || c == '\t'

/-- A token without the blanks around it. -/
def trimBlanks (cs : List Char) : List Char :=
  ((cs.dropWhile isBlank).reverse.dropWhile isBlank).reverse

/-- The value of a digit in a base up to sixteen (log 17 for the case of hexadecimal digits). -/
def digitValue (base : Nat) (c : Char) : Option Nat :=
  let v := c.toNat
  let d := if 48 ≤ v ∧ v ≤ 57 then some (v - 48)
    else if 65 ≤ v ∧ v ≤ 70 then some (v - 55)
    else if 97 ≤ v ∧ v ≤ 102 then some (v - 87)
    else none
  d.bind (fun n => if n < base then some n else none)

/-- The value of a run of digits after the value `acc` of the digits before it. -/
def digitsValue (base : Nat) : (acc : Nat) → List Char → Option Nat
  | acc, []      => some acc
  | acc, c :: cs => (digitValue base c).bind (fun d => digitsValue base (acc * base + d) cs)

/-- A decimal or `0x`-hexadecimal literal (R81). -/
def parseLiteral (cs : List Char) : Option Nat :=
  match cs with
  | '0' :: 'x' :: [] => none
  | '0' :: 'x' :: ds => digitsValue 16 0 ds
  | []               => none
  | ds               => digitsValue 10 0 ds

/-- The operands of a line: literals separated by commas (R81). -/
def splitOperands : (current : List Char) → List Char → List (List Char)
  | cur, []        => [cur]
  | cur, ',' :: cs => cur :: splitOperands [] cs
  | cur, c :: cs   => splitOperands (cur ++ [c]) cs

/-- The values of the operand text of a line; no text is no operand. -/
def parseOperands (cs : List Char) : Option (List Nat) :=
  if cs = [] then some []
  else (splitOperands [] cs).mapM (fun t => parseLiteral (trimBlanks t))

/-- The statement of a mnemonic and its operands (R81, R82). -/
def stmtOf (mnemonic : List Char) (operands : List Nat) : Option AsmStmt :=
  match operands with
  | [] =>
    if mnemonic = "clr.err".toList then some .clrErr
    else if mnemonic = "cur.init".toList then some .curInit
    else if mnemonic = "cur.foff".toList then some .curFoff
    else if mnemonic = "hdr.dec".toList then some .hdrDec
    else if mnemonic = "hdr.dec.noout".toList then some .hdrDecNoOut
    else if mnemonic = "buf.null".toList then some .bufNull
    else none
  | [a] =>
    if mnemonic = "buf.base".toList then some (.bufBase a)
    else if mnemonic = "buf.base.null".toList then some (.bufBaseNull a)
    else if mnemonic = "buf.len".toList then some (.bufLen a)
    else if mnemonic = "cur.read".toList then some (.curRead a)
    else if mnemonic = "cur.skip".toList then some (.curSkip a)
    else if mnemonic = ".word".toList then some (.word a)
    else none
  | [a, b] =>
    if mnemonic = "size.dec".toList then some (.sizeDec a b)
    else if mnemonic = "size.enc".toList then some (.sizeEnc a b)
    else if mnemonic = "buf.set".toList then some (.bufSet a b)
    else if mnemonic = "cur.open".toList then some (.curOpen a b)
    else if mnemonic = "hdr.parse".toList then some (.hdrParse a b)
    else none
  | _ => none

/-- The words of one line of text: a comment runs from `;` to the end, and a line of nothing else has no word
(R81; log 17). None is an assembly error. -/
def assembleLine (p : Params) (line : List Char) : Option (List Cmd) :=
  let text := trimBlanks (line.takeWhile (· ≠ ';'))
  if text = [] then some []
  else
    let mnemonic := text.takeWhile (fun c => !isBlank c)
    let rest := trimBlanks (text.drop mnemonic.length)
    (parseOperands rest).bind (fun ops => (stmtOf mnemonic ops).bind (assemble p))

end Sys2Proof.Machine
end

