-- ==== Sys2Proof/Safety.lean ====
section
/-! DEFINITION. The terms that the statements use: the invariants of the machine (10_state.md R29, R35, R41), what
can be reached, and the vocabulary of the cursor's laws (41_cursor.md R115 to R119) and of the header (R135). -/

namespace Sys2Proof.Machine

/-- The registers of `SIZE_W` and `ADDR_W` bits hold nothing above their width (R41). -/
abbrev State.WidthsOk (s : State) : Prop :=
  s.bufBase.toNat < 2 ^ s.params.addrW ∧ s.curBase.toNat < 2 ^ s.params.addrW ∧
  s.bufLen.toNat < 2 ^ s.params.sizeW ∧ s.curLen.toNat < 2 ^ s.params.sizeW ∧
  s.curByte.toNat < 2 ^ s.params.sizeW ∧ s.szVal.toNat < 2 ^ s.params.sizeW ∧
  s.hdrCons.toNat < 2 ^ s.params.sizeW

/-- The cursor invariants (I-b) and (I-c) of R29; (I-a) is the type of `curBit`. -/
abbrev State.CursorOk (s : State) : Prop :=
  s.curByte.toNat ≤ s.curLen.toNat ∧ (s.curByte = s.curLen → s.curBit = 0#3)

/-- `ERR = 0` exactly when `ERRCODE = 0` (R35), and only the codes of 60_exceptions.md R151 occur (S3). -/
abbrev State.ErrorOk (s : State) : Prop :=
  (s.err = false ↔ s.errCode = 0#4) ∧ s.errCode.toNat ≤ 4

/-- The sentinels of R32 and R34. -/
abbrev State.ResultsOk (s : State) : Prop :=
  (s.szOvf = true → s.szVal = 0#32) ∧
  (s.hdrOk = true → s.hdrCons = 8#32) ∧ (s.hdrOk = false → s.hdrCons = 0#32)

/-- The memory is in its canonical form and inside the address space. -/
abbrev State.MemoryOk (s : State) : Prop := s.mem.wf = true ∧ s.mem.inSpace s.params = true

/-- Between commands no host write is under way, and the last command requested at most eight bytes, each at an
address of `ADDR_W` bits (20_memory.md R50, 70_reset_and_hazards.md R180). -/
abbrev State.PortOk (s : State) : Prop :=
  s.racing = [] ∧ s.portLog.length ≤ 8 ∧ ∀ a ∈ s.portLog, a < 2 ^ s.params.addrW

/-- What holds between commands in every run. -/
abbrev State.Inv (s : State) : Prop :=
  s.params.Legal ∧ s.WidthsOk ∧ s.CursorOk ∧ s.ErrorOk ∧ s.ResultsOk ∧ s.MemoryOk ∧ s.PortOk

/-- The states of every run: from reset, with any legal parameters, any host memory and any events to come. -/
inductive Reachable : State → Prop where
  | reset (p : Params) (m : Memory) (events : List HostEvent)
      (legal : p.Legal) (canonical : m.wf = true) (inSpace : m.inSpace p = true) :
      Reachable { State.reset with params := p, mem := m, inbox := events }
  | step (s t : State) (before : Reachable s) (run : Machine.step s = .next t) : Reachable t

/-- The cursor's position in bits, `P = 8*CUR_BYTE + CUR_BIT` (R115). -/
def curPos (s : State) : Nat := 8 * s.curByte.toNat + s.curBit.toNat

/-- The number of bits in the cursor's buffer. -/
def curBits (s : State) : Nat := 8 * s.curLen.toNat

/-- Stream bit `q` of a buffer is bit `q mod 8` of its byte `q div 8` (R115). -/
def streamBitOf (fetch : Nat → Byte) (q : Nat) : Bool := (fetch (q / 8)).getLsbD (q % 8)

/-- Stream bit `q` of the cursor's buffer (R115). -/
def streamBit (s : State) (q : Nat) : Bool := streamBitOf (memRead s s.curBase) q

/-- `s(q)`: the start of the chunk that holds stream bit `q` in a read from position `P` (R115). -/
def chunkStart (P q : Nat) : Nat := max P (8 * (q / 8))

/-- `e(q)`: the end, exclusive, of that chunk in a read of `n` bits (R115). -/
def chunkEnd (P n q : Nat) : Nat := min (P + n) (8 * (q / 8) + 8)

/-- The bit of `RES` that stream bit `q` goes to (R115). -/
def resPlace (P n q : Nat) : Nat := (P + n - chunkEnd P n q) + (q - chunkStart P q)

/-- The closed form of R115 for a read of `n` bits from position `P`: each stream bit of the field stands in its
place, and every other bit is 0. -/
def ClosedForm (bit : Nat → Bool) (P n : Nat) (r : Word) : Prop :=
  (∀ q, P ≤ q → q < P + n → r.getLsbD (resPlace P n q) = bit q) ∧
  (∀ j, (∀ q, P ≤ q → q < P + n → resPlace P n q ≠ j) → r.getLsbD j = false)

/-- The bytes that a read of `n` bits from bit `bit` of a byte touches. -/
def bytesTouched (bit n : Nat) : Nat := (bit + n + 7) / 8

/-- The requests of a read of `n` bits that is not cut short, in order (20_memory.md R52, R62). -/
def fieldRequests (s : State) (n : Nat) : List Nat :=
  (List.range' s.curByte.toNat (bytesTouched s.curBit.toNat n)).map (byteAddr s.params s.curBase)

/-- The state after a read that leaves the cursor at position `P` with the result `r` and the requests `reqs`. -/
def afterRead (s : State) (P : Nat) (r : Word) (reqs : List Nat) : State :=
  { s with
    res := r, curByte := BitVec.ofNat 32 (P / 8), curBit := BitVec.ofNat 3 (P % 8), portLog := s.portLog ++ reqs }

/-- A count that reads: 1 to 32 (R74). -/
abbrev Reads (n : BitVec 6) : Prop := 1 ≤ n.toNat ∧ n.toNat ≤ 32

/-- The state that an outcome goes on from, none where it stops. -/
def nextOf : Host.Outcome State Fault Refusal → Option State
  | .next t    => some t
  | .fault _   => none
  | .refused _ => none

/-- CUR_READ with each count of a list, in order. -/
def readSeq : List (BitVec 6) → State → Option State
  | [],      s => some s
  | n :: ns, s => (nextOf (exec (.curRead n) s)).bind (readSeq ns)

/-- The results in `RES` of CUR_READ with each count of a list, in order. -/
def readResults : List (BitVec 6) → State → Option (List Word)
  | [],      _ => some []
  | n :: ns, s => (nextOf (exec (.curRead n) s)).bind (fun t => (readResults ns t).map (fun rs => t.res :: rs))

/-- The bits that the non-degenerate counts of a list ask for; degenerate ones add nothing (R117). -/
def totalBits (ns : List (BitVec 6)) : Nat :=
  (ns.map (fun n => if 1 ≤ n.toNat ∧ n.toNat ≤ 32 then n.toNat else 0)).sum

/-- No non-degenerate read of the list, run from `s`, is cut short by the end of the buffer (R115, R117). -/
def NoneCutShort : List (BitVec 6) → State → Prop
  | [],      _ => True
  | n :: ns, s => (Reads n → curPos s + n.toNat ≤ curBits s) ∧
      ∀ t, exec (.curRead n) s = .next t → NoneCutShort ns t

/-- `ceil(a / 8)`. -/
def ceil8 (a : Nat) : Nat := (a + 7) / 8

/-- The byte at index `i` of the described buffer, `m[i] = MemRead(BUF_BASE + i, 1)` (R135). -/
def hdrByte (s : State) (i : Nat) : Byte := memRead s s.bufBase i

/-- The requests for the first `n` bytes of the described buffer, in order. -/
def hdrRequests (s : State) (n : Nat) : List Nat := (List.range n).map (byteAddr s.params s.bufBase)

/-- The condition of success of R135. -/
abbrev HdrAccepts (s : State) (noOut : Bool) : Prop :=
  s.bufNull = false ∧ noOut = false ∧ 8 ≤ s.bufLen.toNat ∧
  hdrByte s 0 = 0x4D#8 ∧ hdrByte s 1 = 0x4D#8 ∧ hdrByte s 2 = 0x52#8

/-- The word `w` decodes to some instruction of the operation `o` (R76). -/
def DecodesTo (p : Params) (w : Cmd) (o : Opcode) : Prop :=
  ∃ i, decode p w = .instr i ∧ opcodeOfInstr i = o

/-- The nine assigned values of `OPC` (R75). -/
def assignedOpcs : List Byte := [0x01#8, 0x10#8, 0x11#8, 0x20#8, 0x21#8, 0x30#8, 0x31#8, 0x32#8, 0x40#8]

/-- Some reserved bit of a word with an assigned `OPC` is 1, as R79 lists them. -/
def ReservedBitSet (p : Params) (w : Cmd) : Prop :=
  w.extractLsb' 16 16 ≠ 0#16 ∨
  (w.extractLsb' 0 8 ∈ [0x01#8, 0x10#8, 0x11#8, 0x21#8, 0x30#8, 0x32#8] ∧ w.extractLsb' 8 8 ≠ 0#8) ∨
  (w.extractLsb' 0 8 ∈ [0x20#8, 0x40#8] ∧ w.extractLsb' 9 7 ≠ 0#7) ∨
  (w.extractLsb' 0 8 = 0x31#8 ∧ w.extractLsb' 14 2 ≠ 0#2) ∨
  (w.extractLsb' 0 8 ∈ [0x01#8, 0x30#8, 0x31#8, 0x32#8, 0x40#8] ∧ w.extractLsb' 32 32 ≠ 0#32) ∨
  (w.extractLsb' 0 8 = 0x20#8 ∧ 2 ^ p.addrW ≤ (w.extractLsb' 32 32).toNat) ∨
  (w.extractLsb' 0 8 = 0x21#8 ∧ 2 ^ p.sizeW ≤ (w.extractLsb' 32 32).toNat)

/-- The state at the end of a command that raised the code `c` and did nothing else (60_exceptions.md R152). -/
def erredCmd (during : List Host.Cell) (rest : List HostEvent) (c : BitVec 4) (s : State) : State :=
  endCmd during { beginCmd during rest s with err := true, errCode := if s.err then s.errCode else c }

/-- The command error that the word `w` raises in the state `s`: that of decoding, or the operation's own check
(60_exceptions.md R151). -/
def Raises (s : State) (w : Cmd) (e : CmdError) : Prop :=
  decode s.params w = .error e ∨
  (e = .noCur ∧ s.curValid = false ∧
    ((∃ n, decode s.params w = .instr (.curRead n)) ∨ decode s.params w = .instr .curFoff)) ∨
  (e = .noBuf ∧ s.bufNull = true ∧ decode s.params w = .instr .curInit)

/-- Every register at its reset value (10_state.md R42). -/
abbrev AtResetValues (s : State) : Prop :=
  s.bufBase = 0#32 ∧ s.bufNull = true ∧ s.bufLen = 0#32 ∧
  s.curBase = 0#32 ∧ s.curLen = 0#32 ∧ s.curByte = 0#32 ∧ s.curBit = 0#3 ∧ s.curValid = false ∧
  s.res = 0#32 ∧ s.szVal = 0#32 ∧ s.szOvf = false ∧
  s.hdrFlags = 0#8 ∧ s.hdrWidth = 0#16 ∧ s.hdrHeight = 0#16 ∧ s.hdrOk = false ∧ s.hdrCons = 0#32 ∧
  s.err = false ∧ s.errCode = 0#4

/-- The big-endian value of the `k` bytes of the cursor's buffer from index `i` on (20_memory.md R58). -/
def bytesBigEndian (s : State) (i k : Nat) : Nat :=
  (List.range k).foldl (fun v j => v * 256 + (memRead s s.curBase (i + j)).toNat) 0

end Sys2Proof.Machine
end

