-- ==== Sys2Proof/Certificates/Slice0/Obligations.lean ====
section
/-! DEFINITION. The statements about the model, from the numbered rules of spec/. Where a statement says what
becomes of the model's own fields (`params`: log 1, `inbox`: log 2, `racing` and the host's writes during a command:
log 5, `draws`: log 6, `portLog`: log 7), that clause is the model's choice, and no rule is cited for it. -/

open Sys2Proof Sys2Proof.Machine

/-! ## Encoding and decoding -/

/-- Encoding a well-formed instruction and decoding the word gives the instruction back, with every operand at
every value the encoding admits (30_encoding.md, sections 1 to 4). -/
def Obligations.EncodeThenDecode : Prop :=
  ∀ (p : Params) (i : Instr), i.wf p = true → decode p (encode i) = .instr i

/-- A word that decodes has one meaning: it is the word of its instruction, and the instruction is well formed
(30_encoding.md, sections 1 to 4). -/
def Obligations.DecodeThenEncode : Prop :=
  ∀ (p : Params) (w : Cmd) (i : Instr), decode p w = .instr i → encode i = w ∧ i.wf p = true

/-- R76: the table of matches and masks, for every value of the parameters. -/
def Obligations.OpcodeMatchAndMask : Prop :=
  ∀ (p : Params) (w : Cmd),
    (DecodesTo p w .clrErr ↔ w &&& 0xFFFFFFFFFFFFFFFF#64 = 0x0000000000000001#64) ∧
    (DecodesTo p w .sizeDec ↔ w &&& 0x00000000FFFFFFFF#64 = 0x0000000000000010#64) ∧
    (DecodesTo p w .sizeEnc ↔ w &&& 0x00000000FFFFFFFF#64 = 0x0000000000000011#64) ∧
    (DecodesTo p w .bufBase ↔
      w &&& 0x00000000FFFFFEFF#64 = 0x0000000000000020#64 ∧ ∀ j, 32 + p.addrW ≤ j → w.getLsbD j = false) ∧
    (DecodesTo p w .bufLen ↔
      w &&& 0x00000000FFFFFFFF#64 = 0x0000000000000021#64 ∧ ∀ j, 32 + p.sizeW ≤ j → w.getLsbD j = false) ∧
    (DecodesTo p w .curInit ↔ w &&& 0xFFFFFFFFFFFFFFFF#64 = 0x0000000000000030#64) ∧
    (DecodesTo p w .curRead ↔ w &&& 0xFFFFFFFFFFFFC0FF#64 = 0x0000000000000031#64) ∧
    (DecodesTo p w .curFoff ↔ w &&& 0xFFFFFFFFFFFFFFFF#64 = 0x0000000000000032#64) ∧
    (DecodesTo p w .hdrDec ↔ w &&& 0xFFFFFFFFFFFFFEFF#64 = 0x0000000000000040#64)

/-- R78: exactly the 247 unassigned `OPC` values are illegal, 0x00 among them; such a word raises E_ILLEGAL and
changes nothing else (the model's own fields: logs 2, 5, 6 and 7). -/
def Obligations.UnassignedOpcodeIsIllegal : Prop :=
  (∀ (p : Params) (w : Cmd), decode p w = .error .illegal ↔ w.extractLsb' 0 8 ∉ assignedOpcs) ∧
  0x00#8 ∉ assignedOpcs ∧
  ((List.range 256).filter (fun n => !assignedOpcs.contains (BitVec.ofNat 8 n))).length = 247 ∧
  ∀ (s : State) (w : Cmd) (ws : List Host.Cell) (rest : List HostEvent),
    s.inbox = .command w ws :: rest → w.extractLsb' 0 8 ∉ assignedOpcs →
      step s = .next (erredCmd ws rest 1#4 s)

/-- R79: a word with an assigned `OPC` raises E_RSV exactly when some reserved bit is 1, and changes nothing else
(the model's own fields: logs 2, 5, 6 and 7). -/
def Obligations.ReservedBitRaisesRsv : Prop :=
  (∀ (p : Params) (w : Cmd),
    decode p w = .error .rsv ↔ w.extractLsb' 0 8 ∈ assignedOpcs ∧ ReservedBitSet p w) ∧
  ∀ (s : State) (w : Cmd) (ws : List Host.Cell) (rest : List HostEvent),
    s.inbox = .command w ws :: rest → w.extractLsb' 0 8 ∈ assignedOpcs → ReservedBitSet s.params w →
      step s = .next (erredCmd ws rest 2#4 s)

/-- R154: the code that one command reports, from a clear error state. -/
def Obligations.ErrorPriority : Prop :=
  ∀ (s : State) (w : Cmd) (ws : List Host.Cell) (rest : List HostEvent),
    s.inbox = .command w ws :: rest → s.err = false → s.errCode = 0#4 →
      ∃ t, step s = .next t ∧
        (w.extractLsb' 0 8 ∉ assignedOpcs → t.err = true ∧ t.errCode = 1#4) ∧
        (w.extractLsb' 0 8 ∈ assignedOpcs → ReservedBitSet s.params w → t.err = true ∧ t.errCode = 2#4) ∧
        (w.extractLsb' 0 8 ∈ assignedOpcs → ¬ ReservedBitSet s.params w →
          (w.extractLsb' 0 8 = 0x30#8 ∧ s.bufNull = true → t.err = true ∧ t.errCode = 4#4) ∧
          (w.extractLsb' 0 8 ∈ [0x31#8, 0x32#8] ∧ s.curValid = false → t.err = true ∧ t.errCode = 3#4) ∧
          (¬ (w.extractLsb' 0 8 = 0x30#8 ∧ s.bufNull = true) →
            ¬ (w.extractLsb' 0 8 ∈ [0x31#8, 0x32#8] ∧ s.curValid = false) → t.err = false ∧ t.errCode = 0#4))

/-- R83: the worked encodings, from text to word and from word to instruction, at `SIZE_W = ADDR_W = 32`. -/
def Obligations.WorkedEncodings : Prop :=
  (assembleLine Params.std "size.dec 4, 3".toList = some [0x0004000300000010#64] ∧
    decode Params.std 0x0004000300000010#64 = .instr (.sizeDec 4#16 3#16)) ∧
  (assembleLine Params.std "buf.base 0x2000".toList = some [0x0000200000000020#64] ∧
    decode Params.std 0x0000200000000020#64 = .instr (.bufBase 0x2000#32 false)) ∧
  (assembleLine Params.std "buf.len 8".toList = some [0x0000000800000021#64] ∧
    decode Params.std 0x0000000800000021#64 = .instr (.bufLen 8#32)) ∧
  (assembleLine Params.std "cur.read 16".toList = some [0x0000000000001031#64] ∧
    decode Params.std 0x0000000000001031#64 = .instr (.curRead 16#6)) ∧
  (assembleLine Params.std "hdr.dec".toList = some [0x0000000000000040#64] ∧
    decode Params.std 0x0000000000000040#64 = .instr (.hdrDec false)) ∧
  (assembleLine Params.std "hdr.dec.noout".toList = some [0x0000000000000140#64] ∧
    decode Params.std 0x0000000000000140#64 = .instr (.hdrDec true)) ∧
  (assembleLine Params.std "buf.base.null 0".toList = some [0x0000000000000120#64] ∧
    decode Params.std 0x0000000000000120#64 = .instr (.bufBase 0#32 true))

/-- Every word that the assembler makes of a statement, but for the `.word` directive, decodes to a well-formed
instruction (30_encoding.md, section 5). -/
def Obligations.AssembledWordsDecode : Prop :=
  ∀ (p : Params) (st : AsmStmt) (ws : List Cmd), assemble p st = some ws → (∀ v, st ≠ .word v) →
    ∀ w ∈ ws, ∃ i, decode p w = .instr i ∧ i.wf p = true

/-- The assembler never truncates: a statement with an operand out of range for its field is an assembly error, and
with its operands in range it is the word of its instruction (30_encoding.md, section 5). -/
def Obligations.AssemblerRefusesOutOfRange : Prop :=
  ∀ (p : Params), p.Legal → ∀ (a b : Nat),
    assemble p (.sizeDec a b) = (if a ≤ 0xFFFF ∧ b ≤ 0xFFFF then
      some [encode (.sizeDec (BitVec.ofNat 16 a) (BitVec.ofNat 16 b))] else none) ∧
    assemble p (.sizeEnc a b) = (if a ≤ 0xFFFF ∧ b ≤ 0xFFFF then
      some [encode (.sizeEnc (BitVec.ofNat 16 a) (BitVec.ofNat 16 b))] else none) ∧
    assemble p (.bufBase a) = (if a < 2 ^ p.addrW then
      some [encode (.bufBase (BitVec.ofNat 32 a) false)] else none) ∧
    assemble p (.bufBaseNull a) = (if a < 2 ^ p.addrW then
      some [encode (.bufBase (BitVec.ofNat 32 a) true)] else none) ∧
    assemble p (.bufLen a) = (if a < 2 ^ p.sizeW then
      some [encode (.bufLen (BitVec.ofNat 32 a))] else none) ∧
    assemble p (.curRead a) = (if a ≤ 63 then some [encode (.curRead (BitVec.ofNat 6 a))] else none)

/-- R82: the expansions of the pseudo-instructions, in order. -/
def Obligations.PseudoExpansions : Prop :=
  ∀ (p : Params) (b n : Nat),
    assemble p .bufNull = assemble p (.bufBaseNull 0) ∧
    assemble p (.bufSet b n) =
      (assemble p (.bufBase b)).bind (fun x => (assemble p (.bufLen n)).bind (fun y => some (x ++ y))) ∧
    assemble p (.curOpen b n) =
      (assemble p (.bufSet b n)).bind (fun x => (assemble p .curInit).bind (fun y => some (x ++ y))) ∧
    assemble p (.hdrParse b n) =
      (assemble p (.bufSet b n)).bind (fun x => (assemble p .hdrDec).bind (fun y => some (x ++ y))) ∧
    assemble p (.curSkip n) = (if 1 ≤ n ∧ n ≤ 32 then assemble p (.curRead n) else none)

/-! ## The step -/

/-- A step runs the decoded instruction: the command leaves the inbox, runs, and ends on the port
(30_encoding.md, section 4; the inbox, the raced bytes and the end of a command are logs 2, 5, 6 and 7). -/
def Obligations.StepRunsDecoded : Prop :=
  ∀ (s : State) (w : Cmd) (ws : List Host.Cell) (rest : List HostEvent) (i : Instr),
    s.inbox = .command w ws :: rest → decode s.params w = .instr i →
      step s = endOutcome ws (exec i (beginCmd ws rest s))

/-- With no event the machine is idle, and idle loses no state (60_exceptions.md, section 4; that idling is a step
which changes nothing is the model's choice, log 3). -/
def Obligations.IdleLosesNoState : Prop :=
  ∀ s : State, s.inbox = [] → step s = .next s

/-- Every command and every step completes: the machine is never stopped (70_reset_and_hazards.md, section 4). -/
def Obligations.EverythingCompletes : Prop :=
  (∀ (i : Instr) (s : State), ∃ t, exec i s = .next t) ∧ ∀ s : State, ∃ t, step s = .next t

/-- No step changes the parameters (10_state.md, section 6; that State carries them is log 1). -/
def Obligations.ParametersNeverChange : Prop :=
  ∀ s t : State, step s = .next t → t.params = s.params

/-! ## Reset -/

/-- R42: the reset state of all the spec's state. -/
def Obligations.ResetValues : Prop := AtResetValues State.reset

/-- R170: a reset between commands leaves every register at the value of R42 and issues no memory read
(that reset is an event, and the record of requests, are logs 2 and 7). -/
def Obligations.ResetEvent : Prop :=
  ∀ (s : State) (rest : List HostEvent), s.inbox = .reset :: rest →
    ∃ t, step s = .next t ∧ AtResetValues t ∧ t.portLog = []

/-! ## Memory and the ports -/

/-- R52: where the byte at an index of a buffer is, and that addresses wrap to 0; a byte that the host does not
write during the command (log 5) reads as memory holds it. -/
def Obligations.BufferAddressWraps : Prop :=
  (∀ (s : State) (base : Word) (i : Nat), (base.toNat + i) % 2 ^ s.params.addrW ∉ s.racing →
    memRead s base i = s.mem.read ((base.toNat + i) % 2 ^ s.params.addrW)) ∧
  ∀ (s : State) (base : Word) (i : Nat), base.toNat + i = 2 ^ s.params.addrW → 0 ∉ s.racing →
    memRead s base i = s.mem.read 0

/-- A host write that completes before a command is seen: the byte reads as written, every other byte as before,
and nothing else changes (20_memory.md, section 4; the address taken modulo `2^ADDR_W` is log 4's choice). -/
def Obligations.HostWriteIsSeen : Prop :=
  ∀ (s : State) (c : Host.Cell) (rest : List HostEvent), s.inbox = .write c :: rest → s.mem.wf = true →
    ∃ m, step s = .next { s with inbox := rest, mem := m } ∧
      ∀ a, m.read a = if a = c.1 % 2 ^ s.params.addrW then c.2 else s.mem.read a

/-- No command writes memory (00_scope.md, section 3; 20_memory.md, section 1), and a command during which the host
writes nothing leaves memory as it was. -/
def Obligations.CommandsNeverWriteMemory : Prop :=
  (∀ (i : Instr) (s : State), ∃ t, exec i s = .next t ∧ t.mem = s.mem) ∧
  ∀ (s : State) (w : Cmd) (rest : List HostEvent), s.inbox = .command w [] :: rest →
    ∃ t, step s = .next t ∧ t.mem = s.mem

/-- R51: a command other than CUR_READ and HDR_DEC issues no memory request, and what it does does not depend on
memory (the port's record: log 7). -/
def Obligations.OnlyTwoCommandsReachMemory : Prop :=
  ∀ (i : Instr) (s : State) (m : Memory), (∀ n, i ≠ .curRead n) → (∀ o, i ≠ .hdrDec o) →
    ∃ t, exec i s = .next t ∧ t.portLog = s.portLog ∧ exec i { s with mem := m } = .next { t with mem := m }

/-- The requests of one command: at most five for CUR_READ, at most eight for HDR_DEC, none for every other word
(70_reset_and_hazards.md, section 4; recorded as log 7 says). -/
def Obligations.RequestsPerCommand : Prop :=
  ∀ (s : State) (w : Cmd) (ws : List Host.Cell) (rest : List HostEvent), s.inbox = .command w ws :: rest →
    ∃ t, step s = .next t ∧
      (DecodesTo s.params w .curRead → t.portLog.length ≤ 5) ∧
      (DecodesTo s.params w .hdrDec → t.portLog.length ≤ 8) ∧
      (¬ DecodesTo s.params w .curRead → ¬ DecodesTo s.params w .hdrDec → t.portLog = [])

/-- The register map of 10_state.md, section 7, on the read port: registers zero-extended, unmapped indices 0. -/
def Obligations.RegisterReadPort : Prop :=
  ∀ s : State, s.params.Legal → s.WidthsOk →
    readPort s 0x01#8 = s.res ∧ readPort s 0x02#8 = s.szVal ∧
    (readPort s 0x03#8).toNat = s.hdrFlags.toNat ∧ (readPort s 0x04#8).toNat = s.hdrWidth.toNat ∧
    (readPort s 0x05#8).toNat = s.hdrHeight.toNat ∧ readPort s 0x06#8 = s.hdrCons ∧
    readPort s 0x07#8 = s.bufBase ∧ readPort s 0x08#8 = s.bufLen ∧ readPort s 0x09#8 = s.curBase ∧
    readPort s 0x0A#8 = s.curLen ∧ readPort s 0x0B#8 = s.curByte ∧
    (readPort s 0x0C#8).toNat = s.curBit.toNat ∧
    (readPort s 0x0D#8).toNat = s.params.addrW * 256 + s.params.sizeW ∧
    ∀ x : BitVec 8, 0x0E ≤ x.toNat → readPort s x = 0#32

/-- The bits of `STATUS` (10_state.md, section 7). -/
def Obligations.StatusBits : Prop :=
  ∀ (s : State) (j : Nat), (readPort s 0x00#8).getLsbD j =
    (if j = 0 then s.err
     else if 4 ≤ j ∧ j ≤ 7 then s.errCode.getLsbD (j - 4)
     else if j = 8 then s.curValid
     else if j = 9 then s.bufNull
     else if j = 10 then s.szOvf
     else if j = 11 then s.hdrOk
     else false)

/-! ## The control command and the command errors -/

/-- R140: CLR_ERR (in the last clause, the model's own fields: logs 2, 5, 6 and 7). -/
def Obligations.ClrErrResult : Prop :=
  (∀ s : State, exec .clrErr s = .next { s with err := false, errCode := 0#4 }) ∧
  (∀ s : State, s.ErrorOk → s.err = false → exec .clrErr s = .next s) ∧
  (∀ (p : Params) (w : Cmd), decode p w = .instr .clrErr ↔ w = 0x0000000000000001#64) ∧
  ∀ (s : State) (w : Cmd) (ws : List Host.Cell) (rest : List HostEvent),
    s.inbox = .command w ws :: rest → w.extractLsb' 0 8 = 0x01#8 → w ≠ 0x0000000000000001#64 →
      step s = .next (erredCmd ws rest 2#4 s)

/-- R152: what each of the four command errors does: ERR set, the first code kept, and no request and no other
register written (the model's own fields: logs 2, 5, 6 and 7). -/
def Obligations.RaiseEffect : Prop :=
  ∀ (s : State) (w : Cmd) (ws : List Host.Cell) (rest : List HostEvent), s.inbox = .command w ws :: rest →
    (decode s.params w = .error .illegal → step s = .next (erredCmd ws rest 1#4 s)) ∧
    (decode s.params w = .error .rsv → step s = .next (erredCmd ws rest 2#4 s)) ∧
    (∀ n, decode s.params w = .instr (.curRead n) → s.curValid = false →
      step s = .next (erredCmd ws rest 3#4 s)) ∧
    (decode s.params w = .instr .curFoff → s.curValid = false → step s = .next (erredCmd ws rest 3#4 s)) ∧
    (decode s.params w = .instr .curInit → s.bufNull = true → step s = .next (erredCmd ws rest 4#4 s))

/-- R35: ERR is sticky, ERRCODE keeps the first code, and ERR is 0 exactly when ERRCODE is. -/
def Obligations.ErrorStateIsSticky : Prop :=
  (State.reset.err = false ∧ State.reset.errCode = 0#4) ∧
  ∀ s : State, ∃ t, step s = .next t ∧
    (s.err = true →
      (t.err = true ∧ t.errCode = s.errCode) ∨
      (∃ rest, s.inbox = .reset :: rest ∧ t.err = false ∧ t.errCode = 0#4) ∨
      (∃ w ws rest, s.inbox = .command w ws :: rest ∧ decode s.params w = .instr .clrErr ∧
        t.err = false ∧ t.errCode = 0#4)) ∧
    (s.err = false → t.err = true →
      ∃ w ws rest e, s.inbox = .command w ws :: rest ∧ Raises s w e ∧ t.errCode = errCodeOf e) ∧
    (s.ErrorOk → t.ErrorOk)

/-- R153: ERR = 1 blocks no command: whatever the error state, a command does to all the rest what it does from any
other error state, a later error keeps the first code, and nothing is fatal. -/
def Obligations.ErrorDoesNotBlock : Prop :=
  (∀ (i : Instr) (s : State) (b : Bool) (c : BitVec 4),
    ∃ t u, exec i s = .next t ∧ exec i { s with err := b, errCode := c } = .next u ∧
      u = { t with err := u.err, errCode := u.errCode }) ∧
  (∀ (i : Instr) (s : State), s.err = true → i ≠ .clrErr →
    ∃ t, exec i s = .next t ∧ t.err = true ∧ t.errCode = s.errCode) ∧
  ∀ s : State, ∃ t, step s = .next t

/-! ## The Size Calculator -/

/-- R101: SIZE_DEC. -/
def Obligations.SizeDecResult : Prop :=
  (∀ (s : State) (w h : BitVec 16), exec (.sizeDec w h) s = .next
    (if 2 ^ s.params.sizeW - 1 < w.toNat * h.toNat then { s with szOvf := true, szVal := 0#32 }
     else { s with szOvf := false, szVal := BitVec.ofNat 32 (w.toNat * h.toNat) })) ∧
  ∀ (p : Params) (w : Cmd),
    decode p w = .instr (.sizeDec (w.extractLsb' 48 16) (w.extractLsb' 32 16)) ↔
      w.extractLsb' 0 32 = 0x00000010#32

/-- R102: SIZE_ENC. -/
def Obligations.SizeEncResult : Prop :=
  (∀ (s : State) (w h : BitVec 16), exec (.sizeEnc w h) s = .next
    (if 2 ^ s.params.sizeW - 1 < w.toNat * h.toNat then { s with szOvf := true, szVal := 0#32 }
     else if 2 ^ s.params.sizeW - 1 < w.toNat * h.toNat + 8 then { s with szOvf := true, szVal := 0#32 }
     else { s with szOvf := false, szVal := BitVec.ofNat 32 (w.toNat * h.toNat + 8) })) ∧
  ∀ (p : Params) (w : Cmd),
    decode p w = .instr (.sizeEnc (w.extractLsb' 48 16) (w.extractLsb' 32 16)) ↔
      w.extractLsb' 0 32 = 0x00000011#32

/-- R105: the five laws of the family. -/
def Obligations.SizeLaws : Prop :=
  ∀ (s : State) (w h : BitVec 16), s.params.Legal →
    ∃ d e, exec (.sizeDec w h) s = .next d ∧ exec (.sizeEnc w h) s = .next e ∧
      (d.szOvf = false → d.szVal.toNat = w.toNat * h.toNat) ∧
      (2 ^ s.params.sizeW - 1 < w.toNat * h.toNat → d.szOvf = true ∧ d.szVal = 0#32) ∧
      (w.toNat * h.toNat ≤ 2 ^ s.params.sizeW - 1 → d.szOvf = false) ∧
      (e.szOvf = false → d.szOvf = false ∧ e.szVal.toNat = d.szVal.toNat + 8) ∧
      (d.szOvf = true → e.szOvf = true) ∧
      (s.params.sizeW = 32 → d.szOvf = false ∧ e.szOvf = false) ∧
      (e.szOvf = true ↔ 2 ^ s.params.sizeW - 1 - 8 < w.toNat * h.toNat)

/-- R9: from `SIZE_W = 32` on no size result depends on `SIZE_W` and none overflows; overflow can be observed exactly
when `SIZE_W < 32`. -/
def Obligations.WiderSizeTypeChangesNothing : Prop :=
  65535 * 65535 + 8 = 0xFFFE0009 ∧ 0xFFFE0009 < 2 ^ 32 ∧
  (∀ (s : State) (w h : BitVec 16) (k : Nat), 32 ≤ s.params.sizeW → 32 ≤ k → ∀ i ∈ [Instr.sizeDec w h, .sizeEnc w h],
    ∃ t u, exec i s = .next t ∧ exec i { s with params := { s.params with sizeW := k } } = .next u ∧
      t.szVal = u.szVal ∧ t.szOvf = false ∧ u.szOvf = false) ∧
  ∀ s : State, s.params.Legal →
    ((∃ w h t, (exec (.sizeDec w h) s = .next t ∨ exec (.sizeEnc w h) s = .next t) ∧ t.szOvf = true) ↔
      s.params.sizeW < 32)

/-! ## The Bit Cursor -/

/-- R110: BUF_BASE; while BUF_NULL = 1 no command but BUF_BASE depends on the stored base. -/
def Obligations.BufBaseResult : Prop :=
  (∀ (s : State) (base : Word) (null : Bool), base.toNat < 2 ^ s.params.addrW →
    exec (.bufBase base null) s = .next { s with bufBase := base, bufNull := null }) ∧
  (∀ (p : Params) (w : Cmd) (base : Word) (null : Bool),
    decode p w = .instr (.bufBase base null) ↔
      w.extractLsb' 0 8 = 0x20#8 ∧ w.extractLsb' 9 7 = 0#7 ∧ w.extractLsb' 16 16 = 0#16 ∧
      (w.extractLsb' 32 32).toNat < 2 ^ p.addrW ∧ base = w.extractLsb' 32 32 ∧ null = w.getLsbD 8) ∧
  ∀ (i : Instr) (s : State) (b : Word), s.bufNull = true → (∀ c n, i ≠ .bufBase c n) →
    ∃ t, exec i s = .next t ∧ exec i { s with bufBase := b } = .next { t with bufBase := b }

/-- R111: BUF_LEN; a length of 0 is legal, its cursor is terminal at once, and HDR_DEC fails over it. -/
def Obligations.BufLenResult : Prop :=
  (∀ (s : State) (len : Word), len.toNat < 2 ^ s.params.sizeW →
    exec (.bufLen len) s = .next { s with bufLen := len }) ∧
  (∀ (p : Params) (w : Cmd) (len : Word),
    decode p w = .instr (.bufLen len) ↔
      w.extractLsb' 0 32 = 0x00000021#32 ∧ (w.extractLsb' 32 32).toNat < 2 ^ p.sizeW ∧
      len = w.extractLsb' 32 32) ∧
  (∀ p : Params, p.sizeW = 16 → decode p 0x0001000000000021#64 = .error .rsv) ∧
  ∀ s : State, s.bufLen = 0#32 →
    (s.bufNull = false → ∃ t, exec .curInit s = .next t ∧ t.curByte = t.curLen) ∧
    ∀ o, ∃ t, exec (.hdrDec o) s = .next t ∧ t.hdrOk = false

/-- R112: CUR_INIT, with a buffer and without one. -/
def Obligations.CurInitResult : Prop :=
  (∀ s : State, s.bufNull = false → exec .curInit s = .next { s with
    curBase := s.bufBase, curLen := s.bufLen, curByte := 0#32, curBit := 0#3, curValid := true }) ∧
  (∀ s : State, s.bufNull = true → exec .curInit s = .next { s with
    err := true, errCode := if s.err then s.errCode else 4#4 }) ∧
  ∀ (p : Params) (w : Cmd), decode p w = .instr .curInit ↔ w = 0x0000000000000030#64

/-- CUR_READ without a cursor raises E_NOCUR, whatever the count; with one, a degenerate count writes RES = 0 and
nothing else (41_cursor.md, section 3). -/
def Obligations.CurReadWithoutField : Prop :=
  (∀ (s : State) (n : BitVec 6), s.curValid = false → exec (.curRead n) s = .next { s with
    err := true, errCode := if s.err then s.errCode else 3#4 }) ∧
  ∀ (s : State) (n : BitVec 6), s.curValid = true → (n = 0#6 ∨ 32 < n.toNat) →
    exec (.curRead n) s = .next { s with res := 0#32 }

/-- R115: a read that is not cut short consumes its stream bits, its result has the closed form, and nothing but
RES, the position and the port's record (log 7) changes. -/
def Obligations.CurReadClosedForm : Prop :=
  ∀ (s : State) (n : BitVec 6), s.curValid = true → Reads n → curPos s + n.toNat ≤ curBits s →
    ∃ r, exec (.curRead n) s = .next (afterRead s (curPos s + n.toNat) r (fieldRequests s n.toNat)) ∧
      ClosedForm (streamBit s) (curPos s) n.toNat r

/-- R116: a read cut short is the read of the bits that are left, unshifted; it leaves the cursor terminal; the
position after any read that is not degenerate is `min(P + n, 8*CUR_LEN)`. That the result is unshifted is the reading
which 90_conflicts.md C3 fixes and 93_implementation_defined.md U2 asks a claim to name (log 13); the port's record is
log 7. -/
def Obligations.CurReadTruncated : Prop :=
  (∀ (s : State) (n : BitVec 6), s.curValid = true → Reads n → s.CursorOk → curBits s < curPos s + n.toNat →
    ∃ r, exec (.curRead n) s = .next (afterRead s (curBits s) r (fieldRequests s (curBits s - curPos s))) ∧
      (afterRead s (curBits s) r (fieldRequests s (curBits s - curPos s))).curByte = s.curLen ∧
      ClosedForm (streamBit s) (curPos s) (curBits s - curPos s) r ∧
      (curBits s - curPos s = 0 → r = 0#32) ∧
      (0 < curBits s - curPos s →
        exec (.curRead (BitVec.ofNat 6 (curBits s - curPos s))) s = exec (.curRead n) s)) ∧
  ∀ (s : State) (n : BitVec 6), s.curValid = true → Reads n → s.CursorOk →
    ∃ t, exec (.curRead n) s = .next t ∧ curPos t = min (curPos s + n.toNat) (curBits s)

/-- R58: from a byte boundary, a read of a whole number of bytes gives them big-endian. -/
def Obligations.AlignedReadIsBigEndian : Prop :=
  (∀ (s : State) (n : BitVec 6) (k : Nat), s.curValid = true → s.curBit = 0#3 → 1 ≤ k → k ≤ 4 → n.toNat = 8 * k →
    s.curByte.toNat + k ≤ s.curLen.toNat →
      ∃ t, exec (.curRead n) s = .next t ∧ t.res.toNat = bytesBigEndian s s.curByte.toNat k) ∧
  ∀ s : State, s.curValid = true → s.curBit = 0#3 → s.curByte.toNat + 2 ≤ s.curLen.toNat →
    memRead s s.curBase s.curByte.toNat = 0xB4#8 → memRead s s.curBase (s.curByte.toNat + 1) = 0x5A#8 →
      ∃ t, exec (.curRead 16#6) s = .next t ∧ t.res = 0xB45A#32

/-- R114: CUR_FOFF; at the end of the buffer it reports the length, and its sum never overflows. -/
def Obligations.CurFoffResult : Prop :=
  (∀ s : State, s.curValid = false → exec .curFoff s = .next { s with
    err := true, errCode := if s.err then s.errCode else 3#4 }) ∧
  (∀ s : State, s.curValid = true → exec .curFoff s = .next { s with
    res := BitVec.ofNat 32 (s.curByte.toNat + if s.curBit = 0#3 then 0 else 1) }) ∧
  (∀ s : State, s.curValid = true → s.CursorOk →
    ∃ t, exec .curFoff s = .next t ∧ t.res.toNat = s.curByte.toNat + (if s.curBit = 0#3 then 0 else 1) ∧
      (s.curByte = s.curLen → t.res = s.curLen)) ∧
  ∀ (p : Params) (w : Cmd), decode p w = .instr .curFoff ↔ w = 0x0000000000000032#64

/-- R117: from a fresh cursor, any list of reads and then CUR_FOFF: the count tells whether a read was cut short. -/
def Obligations.TruncationDetection : Prop :=
  ∀ (s0 s : State) (ns : List (BitVec 6)), s0.bufNull = false → exec .curInit s0 = .next s →
    ∃ u t, readSeq ns s = some u ∧ exec .curFoff u = .next t ∧
      t.res.toNat = ceil8 (min (totalBits ns) (8 * s0.bufLen.toNat)) ∧
      (t.res.toNat = ceil8 (totalBits ns) ↔ totalBits ns ≤ 8 * s0.bufLen.toNat) ∧
      (totalBits ns ≤ 8 * s0.bufLen.toNat ↔ NoneCutShort ns s)

/-- The results of a list of reads that fit the buffer determine its stream bits, and the stream bits determine the
results (41_cursor.md, section 4). -/
def Obligations.ReadsRoundTrip : Prop :=
  ∀ (s t : State) (ns : List (BitVec 6)), (∀ n ∈ ns, Reads n) → s.curValid = true → t.curValid = true →
    curPos s = 0 → curPos t = 0 → totalBits ns ≤ curBits s → totalBits ns ≤ curBits t →
      ((∃ rs, readResults ns s = some rs ∧ readResults ns t = some rs) ↔
        ∀ q, q < totalBits ns → streamBit s q = streamBit t q)

/-- R119: the bounds of one CUR_READ, on the requests it makes (recorded as log 7 says). -/
def Obligations.ReadBounds : Prop :=
  (∀ (s : State) (n : BitVec 6), ∃ t k, exec (.curRead n) s = .next t ∧
    t.portLog = s.portLog ++ (List.range' s.curByte.toNat k).map (byteAddr s.params s.curBase) ∧
    k ≤ 5 ∧ k ≤ ceil8 (s.curBit.toNat + n.toNat) ∧ s.curByte.toNat ≤ t.curByte.toNat) ∧
  ∀ (s : State) (n : BitVec 6), s.curValid = true → Reads n → s.curByte.toNat < s.curLen.toNat →
    ∃ t rest, exec (.curRead n) s = .next t ∧
      t.portLog = s.portLog ++ byteAddr s.params s.curBase s.curByte.toNat :: rest

/-- An active cursor is unaffected by a later BUF_BASE or BUF_LEN: the read after one gives what the read before it
gives (10_state.md, section 3). -/
def Obligations.CursorIsSnapshot : Prop :=
  ∀ (s : State) (b len : Word) (null : Bool) (n : BitVec 6), ∀ i ∈ [Instr.bufBase b null, .bufLen len],
    ∃ t u v, exec i s = .next t ∧ exec (.curRead n) s = .next u ∧ exec (.curRead n) t = .next v ∧
      t.curBase = s.curBase ∧ t.curLen = s.curLen ∧ t.curByte = s.curByte ∧ t.curBit = s.curBit ∧
      t.curValid = s.curValid ∧
      v.res = u.res ∧ v.curByte = u.curByte ∧ v.curBit = u.curBit ∧ v.portLog = u.portLog

/-! ## The Header Decoder -/

/-- R135: when HDR_DEC succeeds and what it then writes, and that the signature may be read as one 24-bit value
(the port's record: log 7). -/
def Obligations.HdrDecClosedForm : Prop :=
  (∀ (s : State) (o : Bool), HdrAccepts s o → exec (.hdrDec o) s = .next { s with
    hdrFlags := hdrByte s 3
    hdrWidth := BitVec.ofNat 16 ((hdrByte s 4).toNat * 256 + (hdrByte s 5).toNat)
    hdrHeight := BitVec.ofNat 16 ((hdrByte s 6).toNat * 256 + (hdrByte s 7).toNat)
    hdrCons := 8#32
    hdrOk := true
    portLog := s.portLog ++ hdrRequests s 8 }) ∧
  (∀ (s : State) (o : Bool), ∃ t, exec (.hdrDec o) s = .next t ∧ (t.hdrOk = true ↔ HdrAccepts s o)) ∧
  ∀ s : State, (hdrByte s 0 = 0x4D#8 ∧ hdrByte s 1 = 0x4D#8 ∧ hdrByte s 2 = 0x52#8) ↔
    (hdrByte s 0).toNat * 65536 + (hdrByte s 1).toNat * 256 + (hdrByte s 2).toNat = 0x4D4D52

/-- The failures of HDR_DEC: with no request where the buffer or the output slot is absent or the buffer is short,
after the three signature bytes where they differ; the output record stays (42_header.md, section 2). -/
def Obligations.HdrDecFailures : Prop :=
  (∀ (s : State) (o : Bool), (s.bufNull = true ∨ o = true ∨ s.bufLen.toNat < 8) →
    exec (.hdrDec o) s = .next { s with hdrOk := false, hdrCons := 0#32 }) ∧
  ∀ (s : State) (o : Bool), s.bufNull = false → o = false → 8 ≤ s.bufLen.toNat → ¬ HdrAccepts s o →
    exec (.hdrDec o) s = .next { s with
      hdrOk := false, hdrCons := 0#32, portLog := s.portLog ++ hdrRequests s 3 }

/-- R136: HDR_DEC touches neither the user cursor, nor RES, nor the size result, nor the buffer descriptor. -/
def Obligations.HdrDecTouchesNothingElse : Prop :=
  ∀ (s : State) (o : Bool), ∃ t, exec (.hdrDec o) s = .next t ∧
    t.curBase = s.curBase ∧ t.curLen = s.curLen ∧ t.curByte = s.curByte ∧ t.curBit = s.curBit ∧
    t.curValid = s.curValid ∧ t.res = s.res ∧ t.szVal = s.szVal ∧ t.szOvf = s.szOvf ∧
    t.bufBase = s.bufBase ∧ t.bufNull = s.bufNull ∧ t.bufLen = s.bufLen

/-- R137: a header written into a buffer is decoded to what was written, for every flags, width and height. -/
def Obligations.HeaderRoundTrip : Prop :=
  ∀ (s : State) (f : Byte) (w h : BitVec 16), s.bufNull = false → 8 ≤ s.bufLen.toNat →
    (List.range 8).map (hdrByte s) =
      [0x4D#8, 0x4D#8, 0x52#8, f, w.extractLsb' 8 8, w.extractLsb' 0 8, h.extractLsb' 8 8, h.extractLsb' 0 8] →
    ∃ t, exec (.hdrDec false) s = .next t ∧
      t.hdrFlags = f ∧ t.hdrWidth = w ∧ t.hdrHeight = h ∧ t.hdrCons = 8#32 ∧ t.hdrOk = true

/-! ## The whole machine -/

/-- The invariant holds after reset (10_state.md, sections 3, 5 and 7; of the model's own fields,
logs 1, 5, 7 and 8). -/
def Obligations.InvariantAtReset : Prop := State.reset.Inv

/-- Every step keeps the invariant, from every state: the widths of the registers, the cursor inside its buffer, the
error state, the sentinels, the memory's form and the port (10_state.md, sections 3, 5 and 7; of the model's own
fields, logs 1, 4, 5, 7 and 8). -/
def Obligations.StepKeepsInvariant : Prop :=
  ∀ s t : State, s.Inv → step s = .next t → t.Inv

/-- R29: the cursor invariants hold in every reachable state. -/
def Obligations.CursorInvariantsReachable : Prop :=
  ∀ s : State, Reachable s →
    s.curBit.toNat ≤ 7 ∧ s.curByte.toNat ≤ s.curLen.toNat ∧ (s.curByte = s.curLen → s.curBit = 0#3)

/-- R28: what writes CUR_VALID, and what needs it. -/
def Obligations.CursorValidity : Prop :=
  State.reset.curValid = false ∧
  (∀ s : State, s.bufNull = false → ∃ t, exec .curInit s = .next t ∧ t.curValid = true) ∧
  (∀ (s : State) (n : BitVec 6), s.curValid = false → ∀ i ∈ [Instr.curRead n, .curFoff],
    ∃ t, exec i s = .next t ∧ t = { s with err := true, errCode := if s.err then s.errCode else 3#4 }) ∧
  ∀ s : State, ∃ t, step s = .next t ∧
    (s.curValid = false → t.curValid = true →
      ∃ w ws rest, s.inbox = .command w ws :: rest ∧ decode s.params w = .instr .curInit) ∧
    (s.curValid = true → t.curValid = false → ∃ rest, s.inbox = .reset :: rest)

/-- No command but CUR_INIT lowers the byte position (10_state.md, section 3). -/
def Obligations.BytePositionNeverFalls : Prop :=
  ∀ (i : Instr) (s : State), i ≠ .curInit → ∃ t, exec i s = .next t ∧ s.curByte.toNat ≤ t.curByte.toNat

/-- No command reads SZ_OVF or HDR_OK: with other values of them it does the same to everything else, and each of the
two bits is either written with a value that does not depend on them (SZ_OVF by the size commands, HDR_OK by HDR_DEC)
or carried over as it was (10_state.md, section 5). -/
def Obligations.NoCommandReadsSentinels : Prop :=
  ∀ (i : Instr) (s : State) (a b : Bool), ∃ t u, exec i s = .next t ∧
    exec i { s with szOvf := a, hdrOk := b } = .next u ∧
    u = { t with szOvf := u.szOvf, hdrOk := u.hdrOk } ∧
    (∀ w h, i ∈ [Instr.sizeDec w h, .sizeEnc w h] → u.szOvf = t.szOvf) ∧
    ((∀ w h, i ∉ [Instr.sizeDec w h, .sizeEnc w h]) → t.szOvf = s.szOvf ∧ u.szOvf = a) ∧
    (∀ o, i = .hdrDec o → u.hdrOk = t.hdrOk) ∧
    ((∀ o, i ≠ .hdrDec o) → t.hdrOk = s.hdrOk ∧ u.hdrOk = b)

/-- The 'written by' column of the register map: a command that is not named there leaves the register unchanged
(10_state.md, section 7). -/
def Obligations.RegisterWriters : Prop :=
  ∀ (i : Instr) (s : State), ∃ t, exec i s = .next t ∧
    ((∀ b n, i ≠ .bufBase b n) → t.bufBase = s.bufBase ∧ t.bufNull = s.bufNull) ∧
    ((∀ n, i ≠ .bufLen n) → t.bufLen = s.bufLen) ∧
    (i ≠ .curInit → t.curBase = s.curBase ∧ t.curLen = s.curLen ∧ t.curValid = s.curValid) ∧
    (i ≠ .curInit → (∀ n, i ≠ .curRead n) → t.curByte = s.curByte ∧ t.curBit = s.curBit) ∧
    ((∀ n, i ≠ .curRead n) → i ≠ .curFoff → t.res = s.res) ∧
    ((∀ w h, i ≠ .sizeDec w h) → (∀ w h, i ≠ .sizeEnc w h) → t.szVal = s.szVal ∧ t.szOvf = s.szOvf) ∧
    ((∀ o, i ≠ .hdrDec o) → t.hdrFlags = s.hdrFlags ∧ t.hdrWidth = s.hdrWidth ∧ t.hdrHeight = s.hdrHeight ∧
      t.hdrOk = s.hdrOk ∧ t.hdrCons = s.hdrCons) ∧
    (∀ o, i = .hdrDec o → t.hdrOk = false →
      t.hdrFlags = s.hdrFlags ∧ t.hdrWidth = s.hdrWidth ∧ t.hdrHeight = s.hdrHeight) ∧
    (i ≠ .clrErr → i ≠ .curInit → (∀ n, i ≠ .curRead n) → i ≠ .curFoff →
      t.err = s.err ∧ t.errCode = s.errCode)
end

