-- ==== Sys2Proof/Laws/State.lean ====
section
/-! SUPPORT. What each update of the state leaves in each field: one lemma per field and update. -/

namespace Sys2Proof.Machine

/-! Raising a command error writes ERR and ERRCODE only (60_exceptions.md R152). -/

@[simp] theorem raiseCmdError_params (e : CmdError) (s : State) : (raiseCmdError e s).params = s.params := rfl
@[simp] theorem raiseCmdError_bufBase (e : CmdError) (s : State) : (raiseCmdError e s).bufBase = s.bufBase := rfl
@[simp] theorem raiseCmdError_bufNull (e : CmdError) (s : State) : (raiseCmdError e s).bufNull = s.bufNull := rfl
@[simp] theorem raiseCmdError_bufLen (e : CmdError) (s : State) : (raiseCmdError e s).bufLen = s.bufLen := rfl
@[simp] theorem raiseCmdError_curBase (e : CmdError) (s : State) : (raiseCmdError e s).curBase = s.curBase := rfl
@[simp] theorem raiseCmdError_curLen (e : CmdError) (s : State) : (raiseCmdError e s).curLen = s.curLen := rfl
@[simp] theorem raiseCmdError_curByte (e : CmdError) (s : State) : (raiseCmdError e s).curByte = s.curByte := rfl
@[simp] theorem raiseCmdError_curBit (e : CmdError) (s : State) : (raiseCmdError e s).curBit = s.curBit := rfl
@[simp] theorem raiseCmdError_curValid (e : CmdError) (s : State) : (raiseCmdError e s).curValid = s.curValid := rfl
@[simp] theorem raiseCmdError_res (e : CmdError) (s : State) : (raiseCmdError e s).res = s.res := rfl
@[simp] theorem raiseCmdError_szVal (e : CmdError) (s : State) : (raiseCmdError e s).szVal = s.szVal := rfl
@[simp] theorem raiseCmdError_szOvf (e : CmdError) (s : State) : (raiseCmdError e s).szOvf = s.szOvf := rfl
@[simp] theorem raiseCmdError_hdrFlags (e : CmdError) (s : State) : (raiseCmdError e s).hdrFlags = s.hdrFlags := rfl
@[simp] theorem raiseCmdError_hdrWidth (e : CmdError) (s : State) : (raiseCmdError e s).hdrWidth = s.hdrWidth := rfl
@[simp] theorem raiseCmdError_hdrHeight (e : CmdError) (s : State) : (raiseCmdError e s).hdrHeight = s.hdrHeight := rfl
@[simp] theorem raiseCmdError_hdrOk (e : CmdError) (s : State) : (raiseCmdError e s).hdrOk = s.hdrOk := rfl
@[simp] theorem raiseCmdError_hdrCons (e : CmdError) (s : State) : (raiseCmdError e s).hdrCons = s.hdrCons := rfl
@[simp] theorem raiseCmdError_err (e : CmdError) (s : State) : (raiseCmdError e s).err = true := rfl
@[simp] theorem raiseCmdError_errCode (e : CmdError) (s : State) : (raiseCmdError e s).errCode = if s.err then s.errCode else errCodeOf e := rfl
@[simp] theorem raiseCmdError_mem (e : CmdError) (s : State) : (raiseCmdError e s).mem = s.mem := rfl
@[simp] theorem raiseCmdError_inbox (e : CmdError) (s : State) : (raiseCmdError e s).inbox = s.inbox := rfl
@[simp] theorem raiseCmdError_racing (e : CmdError) (s : State) : (raiseCmdError e s).racing = s.racing := rfl
@[simp] theorem raiseCmdError_draws (e : CmdError) (s : State) : (raiseCmdError e s).draws = s.draws := rfl
@[simp] theorem raiseCmdError_portLog (e : CmdError) (s : State) : (raiseCmdError e s).portLog = s.portLog := rfl

/-! Clearing the error state writes ERR and ERRCODE only (43_control.md R140). -/

@[simp] theorem clearCmdError_params (s : State) : (clearCmdError s).params = s.params := rfl
@[simp] theorem clearCmdError_bufBase (s : State) : (clearCmdError s).bufBase = s.bufBase := rfl
@[simp] theorem clearCmdError_bufNull (s : State) : (clearCmdError s).bufNull = s.bufNull := rfl
@[simp] theorem clearCmdError_bufLen (s : State) : (clearCmdError s).bufLen = s.bufLen := rfl
@[simp] theorem clearCmdError_curBase (s : State) : (clearCmdError s).curBase = s.curBase := rfl
@[simp] theorem clearCmdError_curLen (s : State) : (clearCmdError s).curLen = s.curLen := rfl
@[simp] theorem clearCmdError_curByte (s : State) : (clearCmdError s).curByte = s.curByte := rfl
@[simp] theorem clearCmdError_curBit (s : State) : (clearCmdError s).curBit = s.curBit := rfl
@[simp] theorem clearCmdError_curValid (s : State) : (clearCmdError s).curValid = s.curValid := rfl
@[simp] theorem clearCmdError_res (s : State) : (clearCmdError s).res = s.res := rfl
@[simp] theorem clearCmdError_szVal (s : State) : (clearCmdError s).szVal = s.szVal := rfl
@[simp] theorem clearCmdError_szOvf (s : State) : (clearCmdError s).szOvf = s.szOvf := rfl
@[simp] theorem clearCmdError_hdrFlags (s : State) : (clearCmdError s).hdrFlags = s.hdrFlags := rfl
@[simp] theorem clearCmdError_hdrWidth (s : State) : (clearCmdError s).hdrWidth = s.hdrWidth := rfl
@[simp] theorem clearCmdError_hdrHeight (s : State) : (clearCmdError s).hdrHeight = s.hdrHeight := rfl
@[simp] theorem clearCmdError_hdrOk (s : State) : (clearCmdError s).hdrOk = s.hdrOk := rfl
@[simp] theorem clearCmdError_hdrCons (s : State) : (clearCmdError s).hdrCons = s.hdrCons := rfl
@[simp] theorem clearCmdError_err (s : State) : (clearCmdError s).err = false := rfl
@[simp] theorem clearCmdError_errCode (s : State) : (clearCmdError s).errCode = 0#4 := rfl
@[simp] theorem clearCmdError_mem (s : State) : (clearCmdError s).mem = s.mem := rfl
@[simp] theorem clearCmdError_inbox (s : State) : (clearCmdError s).inbox = s.inbox := rfl
@[simp] theorem clearCmdError_racing (s : State) : (clearCmdError s).racing = s.racing := rfl
@[simp] theorem clearCmdError_draws (s : State) : (clearCmdError s).draws = s.draws := rfl
@[simp] theorem clearCmdError_portLog (s : State) : (clearCmdError s).portLog = s.portLog := rfl

/-! Memory requests change no register (20_memory.md R50). -/

@[simp] theorem logReads_params (s : State) (b : Word) (is : List Nat) : (logReads s b is).params = s.params := rfl
@[simp] theorem logReads_bufBase (s : State) (b : Word) (is : List Nat) : (logReads s b is).bufBase = s.bufBase := rfl
@[simp] theorem logReads_bufNull (s : State) (b : Word) (is : List Nat) : (logReads s b is).bufNull = s.bufNull := rfl
@[simp] theorem logReads_bufLen (s : State) (b : Word) (is : List Nat) : (logReads s b is).bufLen = s.bufLen := rfl
@[simp] theorem logReads_curBase (s : State) (b : Word) (is : List Nat) : (logReads s b is).curBase = s.curBase := rfl
@[simp] theorem logReads_curLen (s : State) (b : Word) (is : List Nat) : (logReads s b is).curLen = s.curLen := rfl
@[simp] theorem logReads_curByte (s : State) (b : Word) (is : List Nat) : (logReads s b is).curByte = s.curByte := rfl
@[simp] theorem logReads_curBit (s : State) (b : Word) (is : List Nat) : (logReads s b is).curBit = s.curBit := rfl
@[simp] theorem logReads_curValid (s : State) (b : Word) (is : List Nat) : (logReads s b is).curValid = s.curValid := rfl
@[simp] theorem logReads_res (s : State) (b : Word) (is : List Nat) : (logReads s b is).res = s.res := rfl
@[simp] theorem logReads_szVal (s : State) (b : Word) (is : List Nat) : (logReads s b is).szVal = s.szVal := rfl
@[simp] theorem logReads_szOvf (s : State) (b : Word) (is : List Nat) : (logReads s b is).szOvf = s.szOvf := rfl
@[simp] theorem logReads_hdrFlags (s : State) (b : Word) (is : List Nat) : (logReads s b is).hdrFlags = s.hdrFlags := rfl
@[simp] theorem logReads_hdrWidth (s : State) (b : Word) (is : List Nat) : (logReads s b is).hdrWidth = s.hdrWidth := rfl
@[simp] theorem logReads_hdrHeight (s : State) (b : Word) (is : List Nat) : (logReads s b is).hdrHeight = s.hdrHeight := rfl
@[simp] theorem logReads_hdrOk (s : State) (b : Word) (is : List Nat) : (logReads s b is).hdrOk = s.hdrOk := rfl
@[simp] theorem logReads_hdrCons (s : State) (b : Word) (is : List Nat) : (logReads s b is).hdrCons = s.hdrCons := rfl
@[simp] theorem logReads_err (s : State) (b : Word) (is : List Nat) : (logReads s b is).err = s.err := rfl
@[simp] theorem logReads_errCode (s : State) (b : Word) (is : List Nat) : (logReads s b is).errCode = s.errCode := rfl
@[simp] theorem logReads_mem (s : State) (b : Word) (is : List Nat) : (logReads s b is).mem = s.mem := rfl
@[simp] theorem logReads_inbox (s : State) (b : Word) (is : List Nat) : (logReads s b is).inbox = s.inbox := rfl
@[simp] theorem logReads_racing (s : State) (b : Word) (is : List Nat) : (logReads s b is).racing = s.racing := rfl
@[simp] theorem logReads_draws (s : State) (b : Word) (is : List Nat) : (logReads s b is).draws = s.draws := rfl
@[simp] theorem logReads_portLog (s : State) (b : Word) (is : List Nat) : (logReads s b is).portLog = s.portLog ++ is.map (byteAddr s.params b) := rfl

/-! A size result writes SZ_VAL and SZ_OVF only (40_size.md R104). -/

@[simp] theorem writeSize_params (o : Bool) (v : Nat) (s : State) : (writeSize o v s).params = s.params := rfl
@[simp] theorem writeSize_bufBase (o : Bool) (v : Nat) (s : State) : (writeSize o v s).bufBase = s.bufBase := rfl
@[simp] theorem writeSize_bufNull (o : Bool) (v : Nat) (s : State) : (writeSize o v s).bufNull = s.bufNull := rfl
@[simp] theorem writeSize_bufLen (o : Bool) (v : Nat) (s : State) : (writeSize o v s).bufLen = s.bufLen := rfl
@[simp] theorem writeSize_curBase (o : Bool) (v : Nat) (s : State) : (writeSize o v s).curBase = s.curBase := rfl
@[simp] theorem writeSize_curLen (o : Bool) (v : Nat) (s : State) : (writeSize o v s).curLen = s.curLen := rfl
@[simp] theorem writeSize_curByte (o : Bool) (v : Nat) (s : State) : (writeSize o v s).curByte = s.curByte := rfl
@[simp] theorem writeSize_curBit (o : Bool) (v : Nat) (s : State) : (writeSize o v s).curBit = s.curBit := rfl
@[simp] theorem writeSize_curValid (o : Bool) (v : Nat) (s : State) : (writeSize o v s).curValid = s.curValid := rfl
@[simp] theorem writeSize_res (o : Bool) (v : Nat) (s : State) : (writeSize o v s).res = s.res := rfl
@[simp] theorem writeSize_szVal (o : Bool) (v : Nat) (s : State) : (writeSize o v s).szVal = if o then 0#32 else lowBits s.params.sizeW v := rfl
@[simp] theorem writeSize_szOvf (o : Bool) (v : Nat) (s : State) : (writeSize o v s).szOvf = o := rfl
@[simp] theorem writeSize_hdrFlags (o : Bool) (v : Nat) (s : State) : (writeSize o v s).hdrFlags = s.hdrFlags := rfl
@[simp] theorem writeSize_hdrWidth (o : Bool) (v : Nat) (s : State) : (writeSize o v s).hdrWidth = s.hdrWidth := rfl
@[simp] theorem writeSize_hdrHeight (o : Bool) (v : Nat) (s : State) : (writeSize o v s).hdrHeight = s.hdrHeight := rfl
@[simp] theorem writeSize_hdrOk (o : Bool) (v : Nat) (s : State) : (writeSize o v s).hdrOk = s.hdrOk := rfl
@[simp] theorem writeSize_hdrCons (o : Bool) (v : Nat) (s : State) : (writeSize o v s).hdrCons = s.hdrCons := rfl
@[simp] theorem writeSize_err (o : Bool) (v : Nat) (s : State) : (writeSize o v s).err = s.err := rfl
@[simp] theorem writeSize_errCode (o : Bool) (v : Nat) (s : State) : (writeSize o v s).errCode = s.errCode := rfl
@[simp] theorem writeSize_mem (o : Bool) (v : Nat) (s : State) : (writeSize o v s).mem = s.mem := rfl
@[simp] theorem writeSize_inbox (o : Bool) (v : Nat) (s : State) : (writeSize o v s).inbox = s.inbox := rfl
@[simp] theorem writeSize_racing (o : Bool) (v : Nat) (s : State) : (writeSize o v s).racing = s.racing := rfl
@[simp] theorem writeSize_draws (o : Bool) (v : Nat) (s : State) : (writeSize o v s).draws = s.draws := rfl
@[simp] theorem writeSize_portLog (o : Bool) (v : Nat) (s : State) : (writeSize o v s).portLog = s.portLog := rfl

/-! A read field writes RES and the cursor's position only (41_cursor.md R113). -/

@[simp] theorem writeField_params (c : Scan) (s : State) : (writeField c s).params = s.params := rfl
@[simp] theorem writeField_bufBase (c : Scan) (s : State) : (writeField c s).bufBase = s.bufBase := rfl
@[simp] theorem writeField_bufNull (c : Scan) (s : State) : (writeField c s).bufNull = s.bufNull := rfl
@[simp] theorem writeField_bufLen (c : Scan) (s : State) : (writeField c s).bufLen = s.bufLen := rfl
@[simp] theorem writeField_curBase (c : Scan) (s : State) : (writeField c s).curBase = s.curBase := rfl
@[simp] theorem writeField_curLen (c : Scan) (s : State) : (writeField c s).curLen = s.curLen := rfl
@[simp] theorem writeField_curByte (c : Scan) (s : State) : (writeField c s).curByte = BitVec.ofNat 32 c.byte := rfl
@[simp] theorem writeField_curBit (c : Scan) (s : State) : (writeField c s).curBit = BitVec.ofNat 3 c.bit := rfl
@[simp] theorem writeField_curValid (c : Scan) (s : State) : (writeField c s).curValid = s.curValid := rfl
@[simp] theorem writeField_res (c : Scan) (s : State) : (writeField c s).res = c.acc := rfl
@[simp] theorem writeField_szVal (c : Scan) (s : State) : (writeField c s).szVal = s.szVal := rfl
@[simp] theorem writeField_szOvf (c : Scan) (s : State) : (writeField c s).szOvf = s.szOvf := rfl
@[simp] theorem writeField_hdrFlags (c : Scan) (s : State) : (writeField c s).hdrFlags = s.hdrFlags := rfl
@[simp] theorem writeField_hdrWidth (c : Scan) (s : State) : (writeField c s).hdrWidth = s.hdrWidth := rfl
@[simp] theorem writeField_hdrHeight (c : Scan) (s : State) : (writeField c s).hdrHeight = s.hdrHeight := rfl
@[simp] theorem writeField_hdrOk (c : Scan) (s : State) : (writeField c s).hdrOk = s.hdrOk := rfl
@[simp] theorem writeField_hdrCons (c : Scan) (s : State) : (writeField c s).hdrCons = s.hdrCons := rfl
@[simp] theorem writeField_err (c : Scan) (s : State) : (writeField c s).err = s.err := rfl
@[simp] theorem writeField_errCode (c : Scan) (s : State) : (writeField c s).errCode = s.errCode := rfl
@[simp] theorem writeField_mem (c : Scan) (s : State) : (writeField c s).mem = s.mem := rfl
@[simp] theorem writeField_inbox (c : Scan) (s : State) : (writeField c s).inbox = s.inbox := rfl
@[simp] theorem writeField_racing (c : Scan) (s : State) : (writeField c s).racing = s.racing := rfl
@[simp] theorem writeField_draws (c : Scan) (s : State) : (writeField c s).draws = s.draws := rfl
@[simp] theorem writeField_portLog (c : Scan) (s : State) : (writeField c s).portLog = s.portLog ++ c.reads.map (byteAddr s.params s.curBase) := rfl

/-! A failed header writes HDR_OK and HDR_CONS only (42_header.md R131). -/

@[simp] theorem hdrFail_params (s : State) : (hdrFail s).params = s.params := rfl
@[simp] theorem hdrFail_bufBase (s : State) : (hdrFail s).bufBase = s.bufBase := rfl
@[simp] theorem hdrFail_bufNull (s : State) : (hdrFail s).bufNull = s.bufNull := rfl
@[simp] theorem hdrFail_bufLen (s : State) : (hdrFail s).bufLen = s.bufLen := rfl
@[simp] theorem hdrFail_curBase (s : State) : (hdrFail s).curBase = s.curBase := rfl
@[simp] theorem hdrFail_curLen (s : State) : (hdrFail s).curLen = s.curLen := rfl
@[simp] theorem hdrFail_curByte (s : State) : (hdrFail s).curByte = s.curByte := rfl
@[simp] theorem hdrFail_curBit (s : State) : (hdrFail s).curBit = s.curBit := rfl
@[simp] theorem hdrFail_curValid (s : State) : (hdrFail s).curValid = s.curValid := rfl
@[simp] theorem hdrFail_res (s : State) : (hdrFail s).res = s.res := rfl
@[simp] theorem hdrFail_szVal (s : State) : (hdrFail s).szVal = s.szVal := rfl
@[simp] theorem hdrFail_szOvf (s : State) : (hdrFail s).szOvf = s.szOvf := rfl
@[simp] theorem hdrFail_hdrFlags (s : State) : (hdrFail s).hdrFlags = s.hdrFlags := rfl
@[simp] theorem hdrFail_hdrWidth (s : State) : (hdrFail s).hdrWidth = s.hdrWidth := rfl
@[simp] theorem hdrFail_hdrHeight (s : State) : (hdrFail s).hdrHeight = s.hdrHeight := rfl
@[simp] theorem hdrFail_hdrOk (s : State) : (hdrFail s).hdrOk = false := rfl
@[simp] theorem hdrFail_hdrCons (s : State) : (hdrFail s).hdrCons = 0#32 := rfl
@[simp] theorem hdrFail_err (s : State) : (hdrFail s).err = s.err := rfl
@[simp] theorem hdrFail_errCode (s : State) : (hdrFail s).errCode = s.errCode := rfl
@[simp] theorem hdrFail_mem (s : State) : (hdrFail s).mem = s.mem := rfl
@[simp] theorem hdrFail_inbox (s : State) : (hdrFail s).inbox = s.inbox := rfl
@[simp] theorem hdrFail_racing (s : State) : (hdrFail s).racing = s.racing := rfl
@[simp] theorem hdrFail_draws (s : State) : (hdrFail s).draws = s.draws := rfl
@[simp] theorem hdrFail_portLog (s : State) : (hdrFail s).portLog = s.portLog := rfl

/-! An accepted header writes the HDR registers only (42_header.md R131, R136). -/

@[simp] theorem hdrSucceed_params (f a b c d : Byte) (s : State) : (hdrSucceed f a b c d s).params = s.params := rfl
@[simp] theorem hdrSucceed_bufBase (f a b c d : Byte) (s : State) : (hdrSucceed f a b c d s).bufBase = s.bufBase := rfl
@[simp] theorem hdrSucceed_bufNull (f a b c d : Byte) (s : State) : (hdrSucceed f a b c d s).bufNull = s.bufNull := rfl
@[simp] theorem hdrSucceed_bufLen (f a b c d : Byte) (s : State) : (hdrSucceed f a b c d s).bufLen = s.bufLen := rfl
@[simp] theorem hdrSucceed_curBase (f a b c d : Byte) (s : State) : (hdrSucceed f a b c d s).curBase = s.curBase := rfl
@[simp] theorem hdrSucceed_curLen (f a b c d : Byte) (s : State) : (hdrSucceed f a b c d s).curLen = s.curLen := rfl
@[simp] theorem hdrSucceed_curByte (f a b c d : Byte) (s : State) : (hdrSucceed f a b c d s).curByte = s.curByte := rfl
@[simp] theorem hdrSucceed_curBit (f a b c d : Byte) (s : State) : (hdrSucceed f a b c d s).curBit = s.curBit := rfl
@[simp] theorem hdrSucceed_curValid (f a b c d : Byte) (s : State) : (hdrSucceed f a b c d s).curValid = s.curValid := rfl
@[simp] theorem hdrSucceed_res (f a b c d : Byte) (s : State) : (hdrSucceed f a b c d s).res = s.res := rfl
@[simp] theorem hdrSucceed_szVal (f a b c d : Byte) (s : State) : (hdrSucceed f a b c d s).szVal = s.szVal := rfl
@[simp] theorem hdrSucceed_szOvf (f a b c d : Byte) (s : State) : (hdrSucceed f a b c d s).szOvf = s.szOvf := rfl
@[simp] theorem hdrSucceed_hdrFlags (f a b c d : Byte) (s : State) : (hdrSucceed f a b c d s).hdrFlags = f := rfl
@[simp] theorem hdrSucceed_hdrWidth (f a b c d : Byte) (s : State) : (hdrSucceed f a b c d s).hdrWidth = a ++ b := rfl
@[simp] theorem hdrSucceed_hdrHeight (f a b c d : Byte) (s : State) : (hdrSucceed f a b c d s).hdrHeight = c ++ d := rfl
@[simp] theorem hdrSucceed_hdrOk (f a b c d : Byte) (s : State) : (hdrSucceed f a b c d s).hdrOk = true := rfl
@[simp] theorem hdrSucceed_hdrCons (f a b c d : Byte) (s : State) : (hdrSucceed f a b c d s).hdrCons = 8#32 := rfl
@[simp] theorem hdrSucceed_err (f a b c d : Byte) (s : State) : (hdrSucceed f a b c d s).err = s.err := rfl
@[simp] theorem hdrSucceed_errCode (f a b c d : Byte) (s : State) : (hdrSucceed f a b c d s).errCode = s.errCode := rfl
@[simp] theorem hdrSucceed_mem (f a b c d : Byte) (s : State) : (hdrSucceed f a b c d s).mem = s.mem := rfl
@[simp] theorem hdrSucceed_inbox (f a b c d : Byte) (s : State) : (hdrSucceed f a b c d s).inbox = s.inbox := rfl
@[simp] theorem hdrSucceed_racing (f a b c d : Byte) (s : State) : (hdrSucceed f a b c d s).racing = s.racing := rfl
@[simp] theorem hdrSucceed_draws (f a b c d : Byte) (s : State) : (hdrSucceed f a b c d s).draws = s.draws := rfl
@[simp] theorem hdrSucceed_portLog (f a b c d : Byte) (s : State) : (hdrSucceed f a b c d s).portLog = s.portLog := rfl

/-! Reset gives every register the value of 10_state.md R42 and leaves memory alone (70_reset_and_hazards.md R170). -/

@[simp] theorem resetRegisters_params (s : State) : (resetRegisters s).params = s.params := rfl
@[simp] theorem resetRegisters_bufBase (s : State) : (resetRegisters s).bufBase = State.reset.bufBase := rfl
@[simp] theorem resetRegisters_bufNull (s : State) : (resetRegisters s).bufNull = State.reset.bufNull := rfl
@[simp] theorem resetRegisters_bufLen (s : State) : (resetRegisters s).bufLen = State.reset.bufLen := rfl
@[simp] theorem resetRegisters_curBase (s : State) : (resetRegisters s).curBase = State.reset.curBase := rfl
@[simp] theorem resetRegisters_curLen (s : State) : (resetRegisters s).curLen = State.reset.curLen := rfl
@[simp] theorem resetRegisters_curByte (s : State) : (resetRegisters s).curByte = State.reset.curByte := rfl
@[simp] theorem resetRegisters_curBit (s : State) : (resetRegisters s).curBit = State.reset.curBit := rfl
@[simp] theorem resetRegisters_curValid (s : State) : (resetRegisters s).curValid = State.reset.curValid := rfl
@[simp] theorem resetRegisters_res (s : State) : (resetRegisters s).res = State.reset.res := rfl
@[simp] theorem resetRegisters_szVal (s : State) : (resetRegisters s).szVal = State.reset.szVal := rfl
@[simp] theorem resetRegisters_szOvf (s : State) : (resetRegisters s).szOvf = State.reset.szOvf := rfl
@[simp] theorem resetRegisters_hdrFlags (s : State) : (resetRegisters s).hdrFlags = State.reset.hdrFlags := rfl
@[simp] theorem resetRegisters_hdrWidth (s : State) : (resetRegisters s).hdrWidth = State.reset.hdrWidth := rfl
@[simp] theorem resetRegisters_hdrHeight (s : State) : (resetRegisters s).hdrHeight = State.reset.hdrHeight := rfl
@[simp] theorem resetRegisters_hdrOk (s : State) : (resetRegisters s).hdrOk = State.reset.hdrOk := rfl
@[simp] theorem resetRegisters_hdrCons (s : State) : (resetRegisters s).hdrCons = State.reset.hdrCons := rfl
@[simp] theorem resetRegisters_err (s : State) : (resetRegisters s).err = State.reset.err := rfl
@[simp] theorem resetRegisters_errCode (s : State) : (resetRegisters s).errCode = State.reset.errCode := rfl
@[simp] theorem resetRegisters_mem (s : State) : (resetRegisters s).mem = s.mem := rfl
@[simp] theorem resetRegisters_inbox (s : State) : (resetRegisters s).inbox = s.inbox := rfl
@[simp] theorem resetRegisters_racing (s : State) : (resetRegisters s).racing = State.reset.racing := rfl
@[simp] theorem resetRegisters_draws (s : State) : (resetRegisters s).draws = s.draws := rfl
@[simp] theorem resetRegisters_portLog (s : State) : (resetRegisters s).portLog = State.reset.portLog := rfl

/-! Accepting a command changes no register and no memory. -/

@[simp] theorem beginCmd_params (ws : List Host.Cell) (rest : List HostEvent) (s : State) : (beginCmd ws rest s).params = s.params := rfl
@[simp] theorem beginCmd_bufBase (ws : List Host.Cell) (rest : List HostEvent) (s : State) : (beginCmd ws rest s).bufBase = s.bufBase := rfl
@[simp] theorem beginCmd_bufNull (ws : List Host.Cell) (rest : List HostEvent) (s : State) : (beginCmd ws rest s).bufNull = s.bufNull := rfl
@[simp] theorem beginCmd_bufLen (ws : List Host.Cell) (rest : List HostEvent) (s : State) : (beginCmd ws rest s).bufLen = s.bufLen := rfl
@[simp] theorem beginCmd_curBase (ws : List Host.Cell) (rest : List HostEvent) (s : State) : (beginCmd ws rest s).curBase = s.curBase := rfl
@[simp] theorem beginCmd_curLen (ws : List Host.Cell) (rest : List HostEvent) (s : State) : (beginCmd ws rest s).curLen = s.curLen := rfl
@[simp] theorem beginCmd_curByte (ws : List Host.Cell) (rest : List HostEvent) (s : State) : (beginCmd ws rest s).curByte = s.curByte := rfl
@[simp] theorem beginCmd_curBit (ws : List Host.Cell) (rest : List HostEvent) (s : State) : (beginCmd ws rest s).curBit = s.curBit := rfl
@[simp] theorem beginCmd_curValid (ws : List Host.Cell) (rest : List HostEvent) (s : State) : (beginCmd ws rest s).curValid = s.curValid := rfl
@[simp] theorem beginCmd_res (ws : List Host.Cell) (rest : List HostEvent) (s : State) : (beginCmd ws rest s).res = s.res := rfl
@[simp] theorem beginCmd_szVal (ws : List Host.Cell) (rest : List HostEvent) (s : State) : (beginCmd ws rest s).szVal = s.szVal := rfl
@[simp] theorem beginCmd_szOvf (ws : List Host.Cell) (rest : List HostEvent) (s : State) : (beginCmd ws rest s).szOvf = s.szOvf := rfl
@[simp] theorem beginCmd_hdrFlags (ws : List Host.Cell) (rest : List HostEvent) (s : State) : (beginCmd ws rest s).hdrFlags = s.hdrFlags := rfl
@[simp] theorem beginCmd_hdrWidth (ws : List Host.Cell) (rest : List HostEvent) (s : State) : (beginCmd ws rest s).hdrWidth = s.hdrWidth := rfl
@[simp] theorem beginCmd_hdrHeight (ws : List Host.Cell) (rest : List HostEvent) (s : State) : (beginCmd ws rest s).hdrHeight = s.hdrHeight := rfl
@[simp] theorem beginCmd_hdrOk (ws : List Host.Cell) (rest : List HostEvent) (s : State) : (beginCmd ws rest s).hdrOk = s.hdrOk := rfl
@[simp] theorem beginCmd_hdrCons (ws : List Host.Cell) (rest : List HostEvent) (s : State) : (beginCmd ws rest s).hdrCons = s.hdrCons := rfl
@[simp] theorem beginCmd_err (ws : List Host.Cell) (rest : List HostEvent) (s : State) : (beginCmd ws rest s).err = s.err := rfl
@[simp] theorem beginCmd_errCode (ws : List Host.Cell) (rest : List HostEvent) (s : State) : (beginCmd ws rest s).errCode = s.errCode := rfl
@[simp] theorem beginCmd_mem (ws : List Host.Cell) (rest : List HostEvent) (s : State) : (beginCmd ws rest s).mem = s.mem := rfl
@[simp] theorem beginCmd_inbox (ws : List Host.Cell) (rest : List HostEvent) (s : State) : (beginCmd ws rest s).inbox = rest := rfl
@[simp] theorem beginCmd_racing (ws : List Host.Cell) (rest : List HostEvent) (s : State) : (beginCmd ws rest s).racing = ws.map (fun c => portAddr s.params c.1) := rfl
@[simp] theorem beginCmd_draws (ws : List Host.Cell) (rest : List HostEvent) (s : State) : (beginCmd ws rest s).draws = s.draws := rfl
@[simp] theorem beginCmd_portLog (ws : List Host.Cell) (rest : List HostEvent) (s : State) : (beginCmd ws rest s).portLog = [] := rfl

/-! Ending a command lands the host's writes and changes no register (20_memory.md R65). -/

@[simp] theorem endCmd_params (ws : List Host.Cell) (s : State) : (endCmd ws s).params = s.params := rfl
@[simp] theorem endCmd_bufBase (ws : List Host.Cell) (s : State) : (endCmd ws s).bufBase = s.bufBase := rfl
@[simp] theorem endCmd_bufNull (ws : List Host.Cell) (s : State) : (endCmd ws s).bufNull = s.bufNull := rfl
@[simp] theorem endCmd_bufLen (ws : List Host.Cell) (s : State) : (endCmd ws s).bufLen = s.bufLen := rfl
@[simp] theorem endCmd_curBase (ws : List Host.Cell) (s : State) : (endCmd ws s).curBase = s.curBase := rfl
@[simp] theorem endCmd_curLen (ws : List Host.Cell) (s : State) : (endCmd ws s).curLen = s.curLen := rfl
@[simp] theorem endCmd_curByte (ws : List Host.Cell) (s : State) : (endCmd ws s).curByte = s.curByte := rfl
@[simp] theorem endCmd_curBit (ws : List Host.Cell) (s : State) : (endCmd ws s).curBit = s.curBit := rfl
@[simp] theorem endCmd_curValid (ws : List Host.Cell) (s : State) : (endCmd ws s).curValid = s.curValid := rfl
@[simp] theorem endCmd_res (ws : List Host.Cell) (s : State) : (endCmd ws s).res = s.res := rfl
@[simp] theorem endCmd_szVal (ws : List Host.Cell) (s : State) : (endCmd ws s).szVal = s.szVal := rfl
@[simp] theorem endCmd_szOvf (ws : List Host.Cell) (s : State) : (endCmd ws s).szOvf = s.szOvf := rfl
@[simp] theorem endCmd_hdrFlags (ws : List Host.Cell) (s : State) : (endCmd ws s).hdrFlags = s.hdrFlags := rfl
@[simp] theorem endCmd_hdrWidth (ws : List Host.Cell) (s : State) : (endCmd ws s).hdrWidth = s.hdrWidth := rfl
@[simp] theorem endCmd_hdrHeight (ws : List Host.Cell) (s : State) : (endCmd ws s).hdrHeight = s.hdrHeight := rfl
@[simp] theorem endCmd_hdrOk (ws : List Host.Cell) (s : State) : (endCmd ws s).hdrOk = s.hdrOk := rfl
@[simp] theorem endCmd_hdrCons (ws : List Host.Cell) (s : State) : (endCmd ws s).hdrCons = s.hdrCons := rfl
@[simp] theorem endCmd_err (ws : List Host.Cell) (s : State) : (endCmd ws s).err = s.err := rfl
@[simp] theorem endCmd_errCode (ws : List Host.Cell) (s : State) : (endCmd ws s).errCode = s.errCode := rfl
@[simp] theorem endCmd_mem (ws : List Host.Cell) (s : State) : (endCmd ws s).mem = hostWrites s.params s.mem ws := rfl
@[simp] theorem endCmd_inbox (ws : List Host.Cell) (s : State) : (endCmd ws s).inbox = s.inbox := rfl
@[simp] theorem endCmd_racing (ws : List Host.Cell) (s : State) : (endCmd ws s).racing = [] := rfl
@[simp] theorem endCmd_draws (ws : List Host.Cell) (s : State) : (endCmd ws s).draws = s.draws + 1 := rfl
@[simp] theorem endCmd_portLog (ws : List Host.Cell) (s : State) : (endCmd ws s).portLog = s.portLog := rfl

end Sys2Proof.Machine
end

