-- ==== Sys2Proof/Laws/Cursor.lean ====
section
/-! SUPPORT. What the loop of 41_cursor.md R113 does, said once: the position it ends at, the bits of its result and
the bytes it requests, for a read that the end of the buffer may cut short. -/

namespace Sys2Proof.Machine

/-- The bits of one chunk: `k` bits of the byte from bit `b` on (20_memory.md R56). -/
theorem chunk_bit (x : Byte) (b k i : Nat) (hk : k ≤ 8) :
    ((x >>> b) &&& BitVec.ofNat 8 (2 ^ k - 1)).getLsbD i = (decide (i < k) && x.getLsbD (b + i)) := by
  simp only [BitVec.getLsbD_and, BitVec.getLsbD_ushiftRight, BitVec.getLsbD_ofNat, Nat.testBit_two_pow_sub_one]
  by_cases h : i < k
  · have h8 : i < 8 := by omega
    simp [h, h8]
  · simp [h]

/-- The running result after one turn: the new chunk in its low `k` bits, the old result above it (R57). -/
theorem chunkStep_bit (fetch : Nat → Byte) (c : Scan) (j : Nat) (hj : j < 32) :
    (chunkStep fetch c).acc.getLsbD j =
      if j < min c.n (8 - c.bit) then (fetch c.byte).getLsbD (c.bit + j)
      else c.acc.getLsbD (j - min c.n (8 - c.bit)) := by
  simp only [chunkStep, BitVec.getLsbD_or, BitVec.getLsbD_shiftLeft, BitVec.getLsbD_setWidth]
  rw [chunk_bit _ _ _ _ (by omega)]
  by_cases h : j < min c.n (8 - c.bit) <;> simp [h, hj]

/-- One turn takes the bits it says, and stays at a bit position below 8. -/
theorem chunkStep_pos (fetch : Nat → Byte) (c : Scan) (hb : c.bit < 8) :
    8 * (chunkStep fetch c).byte + (chunkStep fetch c).bit = 8 * c.byte + c.bit + min c.n (8 - c.bit) ∧
    (chunkStep fetch c).bit < 8 := by
  simp only [chunkStep]
  split <;> omega

/-- The bytes that the rest of a loop requests. -/
def requestCount (bit m : Nat) : Nat := if m = 0 then 0 else bytesTouched bit m

/-- Everything that the loop of R113 can do from a position inside the buffer. -/
structure LoopSpec (fetch : Nat → Byte) (c r : Scan) (P m : Nat) : Prop where
  position : 8 * r.byte + r.bit = P + m
  bitLt : r.bit < 8
  field : ∀ q, P ≤ q → q < P + m → resPlace P m q < 32 → r.acc.getLsbD (resPlace P m q) = streamBitOf fetch q
  above : ∀ j, m ≤ j → j < 32 → r.acc.getLsbD j = c.acc.getLsbD (j - m)
  requests : r.reads = c.reads ++ List.range' c.byte (requestCount c.bit m)

theorem scanLoop_stopped (fetch : Nat → Byte) (len fuel : Nat) (c : Scan) (h : ¬(0 < c.n ∧ c.byte < len)) :
    scanLoop fetch len fuel c = c := by
  cases fuel with
  | zero => rfl
  | succ f => simp only [scanLoop, h, if_false]

theorem LoopSpec.none (fetch : Nat → Byte) (c : Scan) (P : Nat) (hP : P = 8 * c.byte + c.bit) (hb : c.bit < 8) :
    LoopSpec fetch c c P 0 where
  position := by omega
  bitLt := hb
  field := by intro q h1 h2; omega
  above := by intro j _ _; simp
  requests := by simp [requestCount]

/-- The loop from any scan: it takes `m` bits, the wanted ones that the buffer still has. -/
theorem scanLoop_spec (fetch : Nat → Byte) (len fuel : Nat) (c : Scan) (P m : Nat) (hf : c.n ≤ fuel)
    (hb : c.bit < 8) (hP : P = 8 * c.byte + c.bit) (hin : P ≤ 8 * len) (hm : m = min c.n (8 * len - P)) :
    LoopSpec fetch c (scanLoop fetch len fuel c) P m := by
  induction fuel generalizing c P m with
  | zero =>
    obtain rfl : m = 0 := by omega
    exact LoopSpec.none fetch c P hP hb
  | succ f ih =>
    by_cases go : 0 < c.n ∧ c.byte < len
    · have step : scanLoop fetch len (f + 1) c = scanLoop fetch len f (chunkStep fetch c) := by
        simp only [scanLoop, go, and_self, if_true]
      obtain ⟨hpos, hbit⟩ := chunkStep_pos fetch c hb
      have hk1 : 0 < min c.n (8 - c.bit) := by omega
      have hkm : min c.n (8 - c.bit) ≤ m := by omega
      have hn : (chunkStep fetch c).n = c.n - min c.n (8 - c.bit) := rfl
      have hacc := chunkStep_bit fetch c
      have hreads : (chunkStep fetch c).reads = c.reads ++ [c.byte] := rfl
      have hbyte : (chunkStep fetch c).byte = if c.bit + min c.n (8 - c.bit) = 8 then c.byte + 1 else c.byte := rfl
      have hbit' : (chunkStep fetch c).bit = if c.bit + min c.n (8 - c.bit) = 8 then 0 else c.bit + min c.n (8 - c.bit) := rfl
      obtain ⟨k, hk⟩ : ∃ k, k = min c.n (8 - c.bit) := ⟨_, rfl⟩
      rw [← hk] at hpos hk1 hkm hn hacc hbyte hbit'
      have r := ih (chunkStep fetch c) (P + k) (m - k) (by omega) hbit (by omega) (by omega) (by omega)
      rw [step]
      refine ⟨by have := r.position; omega, r.bitLt, ?_, ?_, ?_⟩
      · intro q h1 h2 h3
        by_cases hq : q < P + k
        · have hdiv : q / 8 = c.byte := by omega
          have hplace : resPlace P m q = (m - k) + (q - P) := by
            simp only [resPlace, chunkStart, chunkEnd]; omega
          have hmod : q % 8 = c.bit + (q - P) := by omega
          rw [hplace, r.above _ (by omega) (by omega), hacc _ (by omega)]
          have e : m - k + (q - P) - (m - k) = q - P := by omega
          have lt : q - P < k := by omega
          simp [e, lt, streamBitOf, hdiv, hmod]
        · have hplace : resPlace P m q = resPlace (P + k) (m - k) q := by
            simp only [resPlace, chunkStart, chunkEnd]; omega
          rw [hplace]
          exact r.field q (by omega) (by omega) (by omega)
      · intro j h1 h2
        rw [r.above j (by omega) h2, hacc _ (by omega)]
        have ge : ¬ (j - (m - k) < k) := by omega
        have e : j - (m - k) - k = j - m := by omega
        simp [ge, e]
      · rw [r.requests, hreads, List.append_assoc]
        congr 1
        have hc : requestCount c.bit m = requestCount (chunkStep fetch c).bit (m - k) + 1 := by
          simp only [requestCount, bytesTouched, hbit']
          split_ifs <;> omega
        rw [hc, List.range'_succ, List.singleton_append]
        congr 1
        by_cases full : c.bit + k = 8
        · simp [hbyte, full]
        · have : m - k = 0 := by omega
          simp [this, requestCount]
    · rw [scanLoop_stopped _ _ _ _ go]
      obtain rfl : m = 0 := by omega
      exact LoopSpec.none fetch c P hP hb

/-- The places of the field's bits fill the low `m` bits of the result. -/
theorem resPlace_lt {P m q : Nat} (h1 : P ≤ q) (h2 : q < P + m) : resPlace P m q < m := by
  simp only [resPlace, chunkStart, chunkEnd]; omega

/-- Every place below `m` belongs to some stream bit of the field. -/
theorem resPlace_onto {P m j : Nat} (h : j < m) : ∃ q, P ≤ q ∧ q < P + m ∧ resPlace P m q = j := by
  -- the byte of the stream bit at distance `j` from the end of the field fixes its chunk
  obtain ⟨b, hb⟩ : ∃ b, b = (P + m - 1 - j) / 8 := ⟨_, rfl⟩
  refine ⟨max P (8 * b) + (j - (P + m - min (P + m) (8 * b + 8))), ?_, ?_, ?_⟩
  · omega
  · omega
  · have : (max P (8 * b) + (j - (P + m - min (P + m) (8 * b + 8)))) / 8 = b := by omega
    simp only [resPlace, chunkStart, chunkEnd, this]; omega

/-- Two stream bits of a field have different places. -/
theorem resPlace_inj {P m q q' : Nat} (h1 : P ≤ q) (h2 : q < P + m) (h1' : P ≤ q') (h2' : q' < P + m)
    (h : resPlace P m q = resPlace P m q') : q = q' := by
  simp only [resPlace, chunkStart, chunkEnd] at h
  omega

/-- What a field read gives (R113, R115, R116): `m` bits, the wanted ones that the buffer still has, are taken from
position `P`; the result has the closed form of R115; the bytes it needs are requested once, in order. -/
structure FieldSpec (fetch : Nat → Byte) (byte bit : Nat) (r : Scan) (P m : Nat) : Prop where
  byteAt : r.byte = (P + m) / 8
  bitAt : r.bit = (P + m) % 8
  result : ClosedForm (streamBitOf fetch) P m r.acc
  requests : r.reads = List.range' byte (requestCount bit m)

theorem readField_spec (fetch : Nat → Byte) (len n byte bit P m : Nat) (hn : n ≤ 32) (hb : bit < 8)
    (hP : P = 8 * byte + bit) (hin : P ≤ 8 * len) (hm : m = min n (8 * len - P)) :
    FieldSpec fetch byte bit (readField fetch len n byte bit) P m := by
  have r := scanLoop_spec fetch len n { n := n, byte := byte, bit := bit, acc := 0#32, reads := [] } P m
    (Nat.le_refl n) hb hP hin hm
  have hpos := r.position
  have hbit := r.bitLt
  refine ⟨?_, ?_, ⟨?_, ?_⟩, ?_⟩
  · simp only [readField]; omega
  · simp only [readField]; omega
  · intro q h1 h2
    exact r.field q h1 h2 (by have := resPlace_lt h1 h2; omega)
  · intro j hj
    by_cases h32 : j < 32
    · by_cases hjm : j < m
      · obtain ⟨q, h1, h2, h3⟩ := resPlace_onto (P := P) hjm
        exact absurd h3 (hj q h1 h2)
      · have := r.above j (by omega) h32
        simpa [readField] using this
    · exact BitVec.getLsbD_of_ge _ _ (by omega)
  · simpa [readField] using r.requests

/-- A read at or past the end of the buffer changes nothing and requests nothing (R113). -/
theorem readField_starved (fetch : Nat → Byte) (len n byte bit : Nat) (h : len ≤ byte) :
    readField fetch len n byte bit = { n := n, byte := byte, bit := bit, acc := 0#32, reads := [] } :=
  scanLoop_stopped _ _ _ _ (by simp only []; omega)

/-- The closed form fixes the result. -/
theorem ClosedForm.unique {bit : Nat → Bool} {P m : Nat} {r r' : Word} (h : ClosedForm bit P m r)
    (h' : ClosedForm bit P m r') : r = r' := by
  apply BitVec.eq_of_getLsbD_eq
  intro j _
  by_cases hj : j < m
  · obtain ⟨q, h1, h2, rfl⟩ := resPlace_onto (P := P) hj
    rw [h.1 q h1 h2, h'.1 q h1 h2]
  · have none : ∀ q, P ≤ q → q < P + m → resPlace P m q ≠ j := by
      intro q h1 h2 e
      have := resPlace_lt h1 h2
      omega
    rw [h.2 j none, h'.2 j none]

/-- `rd8` from a byte boundary inside the buffer gives that byte and moves on by one (42_header.md R132). -/
theorem rd8_aligned (fetch : Nat → Byte) (len : Nat) (c : PrivCursor) (hb : c.bit = 0) (hin : c.byte < len) :
    rd8 fetch len c =
      { value := fetch c.byte, cur := { byte := c.byte + 1, bit := 0, reads := c.reads ++ [c.byte] } } := by
  have s := readField_spec fetch len 8 c.byte 0 (8 * c.byte) 8 (by omega) (by omega) (by omega) (by omega) (by omega)
  have hv : (readField fetch len 8 c.byte 0).acc.setWidth 8 = fetch c.byte := by
    apply BitVec.eq_of_getLsbD_eq
    intro j hj
    have hq := s.result.1 (8 * c.byte + j) (by omega) (by omega)
    have hp : resPlace (8 * c.byte) 8 (8 * c.byte + j) = j := by
      simp only [resPlace, chunkStart, chunkEnd]; omega
    have hd : (8 * c.byte + j) / 8 = c.byte := by omega
    have hm : (8 * c.byte + j) % 8 = j := by omega
    rw [hp] at hq
    simp only [BitVec.getLsbD_setWidth, hj, decide_true, Bool.true_and, hq, streamBitOf, hd, hm]
  have h1 : (readField fetch len 8 c.byte 0).byte = c.byte + 1 := by have := s.byteAt; omega
  have h2 : (readField fetch len 8 c.byte 0).bit = 0 := by have := s.bitAt; omega
  have h3 : (readField fetch len 8 c.byte 0).reads = [c.byte] := by
    simpa [requestCount, bytesTouched] using s.requests
  simp only [rd8, hb, hv, h1, h2, h3]

end Sys2Proof.Machine
end

