-- ==== Sys2Proof/Laws/Decode.lean ====
section
/-! SUPPORT. The fields of a command word, and what decoding can answer (30_encoding.md R70 to R79). -/

namespace Sys2Proof

@[simp] theorem cmdOpc_packCmd (i : Word) (r : BitVec 16) (s o : Byte) : cmdOpc (packCmd i r s o) = o := by
  unfold packCmd cmdOpc
  ext j hj
  simp
  grind

@[simp] theorem cmdSub_packCmd (i : Word) (r : BitVec 16) (s o : Byte) : cmdSub (packCmd i r s o) = s := by
  unfold packCmd cmdSub
  ext j hj
  simp
  grind

@[simp] theorem cmdRsv_packCmd (i : Word) (r : BitVec 16) (s o : Byte) : cmdRsv (packCmd i r s o) = r := by
  unfold packCmd cmdRsv
  ext j hj
  simp
  grind

@[simp] theorem cmdImm_packCmd (i : Word) (r : BitVec 16) (s o : Byte) : cmdImm (packCmd i r s o) = i := by
  unfold packCmd cmdImm
  ext j hj
  simp
  grind

/-- A word is its four fields (R70). -/
@[simp] theorem packCmd_fields (w : Cmd) : packCmd (cmdImm w) (cmdRsv w) (cmdSub w) (cmdOpc w) = w := by
  unfold packCmd cmdImm cmdRsv cmdSub cmdOpc
  apply BitVec.eq_of_getLsbD_eq
  intro j hj
  simp only [BitVec.getLsbD_append, BitVec.getLsbD_extractLsb']
  grind

/-- Two words are equal when their four fields are. -/
theorem cmd_ext {w v : Cmd} (hi : cmdImm w = cmdImm v) (hr : cmdRsv w = cmdRsv v) (hs : cmdSub w = cmdSub v)
    (ho : cmdOpc w = cmdOpc v) : w = v := by
  rw [← packCmd_fields w, ← packCmd_fields v, hi, hr, hs, ho]

@[simp] theorem cmdOpc_and (w v : Cmd) : cmdOpc (w &&& v) = cmdOpc w &&& cmdOpc v := by
  unfold cmdOpc; ext j hj; simp

@[simp] theorem cmdSub_and (w v : Cmd) : cmdSub (w &&& v) = cmdSub w &&& cmdSub v := by
  unfold cmdSub; ext j hj; simp

@[simp] theorem cmdRsv_and (w v : Cmd) : cmdRsv (w &&& v) = cmdRsv w &&& cmdRsv v := by
  unfold cmdRsv; ext j hj; simp

@[simp] theorem cmdImm_and (w v : Cmd) : cmdImm (w &&& v) = cmdImm w &&& cmdImm v := by
  unfold cmdImm; ext j hj; simp

/-- The match and mask of R76, field by field: the operation code is the operation's, and no reserved bit is 1. -/
theorem matches_iff (p : Params) (w : Cmd) (o : Opcode) :
    w &&& maskOf p o = matchOf o ↔
      cmdOpc w = opcByte o ∧ cmdRsv w = 0#16 ∧ cmdSub w &&& subReserved o = 0#8 ∧
      cmdImm w &&& immReserved p o = 0#32 := by
  have e8 : ∀ x : Byte, x &&& 0xFF#8 = x := fun x => by
    have : (0xFF#8) = BitVec.allOnes 8 := rfl
    rw [this, BitVec.and_allOnes]
  have e16 : ∀ x : BitVec 16, x &&& 0xFFFF#16 = x := fun x => by
    have : (0xFFFF#16) = BitVec.allOnes 16 := rfl
    rw [this, BitVec.and_allOnes]
  constructor
  · intro h
    have h1 := congrArg cmdOpc h
    have h2 := congrArg cmdRsv h
    have h3 := congrArg cmdSub h
    have h4 := congrArg cmdImm h
    simp only [cmdOpc_and, cmdRsv_and, cmdSub_and, cmdImm_and, maskOf, matchOf, cmdOpc_packCmd, cmdRsv_packCmd,
      cmdSub_packCmd, cmdImm_packCmd, e8, e16] at h1 h2 h3 h4
    exact ⟨h1, h2, h3, h4⟩
  · rintro ⟨h1, h2, h3, h4⟩
    apply cmd_ext <;> simp [maskOf, matchOf, e8, e16, h1, h2, h3, h4]

/-- A value has no bit at or above `k` when it is below `2^k`: the reserved bits of `IMM` (R79). -/
theorem and_high_eq_zero_iff (x : Word) (k : Nat) : x &&& BitVec.allOnes 32 <<< k = 0#32 ↔ x.toNat < 2 ^ k := by
  constructor
  · intro h
    apply Nat.lt_pow_two_of_testBit
    intro j hj
    by_cases h32 : j < 32
    · have b := congrArg (fun v => v.getLsbD j) h
      have hk : ¬ j < k := by omega
      have hs : j - k < 32 := by omega
      simp only [BitVec.getLsbD_and, BitVec.getLsbD_shiftLeft, BitVec.getLsbD_allOnes, h32, hk, hs, decide_true,
        decide_false, Bool.not_false, Bool.and_true, BitVec.getLsbD_zero] at b
      rw [BitVec.testBit_toNat, b]
    · rw [BitVec.testBit_toNat]
      exact BitVec.getLsbD_of_ge _ _ (by omega)
  · intro h
    apply BitVec.eq_of_getLsbD_eq
    intro j hj
    by_cases hk : j < k
    · simp [hk]
    · have : x.getLsbD j = false := by
        rw [← BitVec.testBit_toNat]
        exact Nat.testBit_lt_two_pow (Nat.lt_of_lt_of_le h (Nat.pow_le_pow_right (by omega) (by omega)))
      simp [this]

@[simp] theorem opcodeOf_opcByte (o : Opcode) : opcodeOf (opcByte o) = some o := by cases o <;> decide

/-- The operation of an assigned `OPC` is the one whose code it is (R75). -/
theorem opcodeOf_eq_some {b : Byte} {o : Opcode} (h : opcodeOf b = some o) : b = opcByte o := by
  unfold opcodeOf at h
  repeat' split at h
  all_goals first | (cases h; assumption) | cases h

@[simp] theorem opcodeOfInstr_operandsOf (w : Cmd) (o : Opcode) : opcodeOfInstr (operandsOf w o) = o := by
  cases o <;> rfl

/-- What decoding can answer, and when: each answer by the checks of R77. -/
theorem decode_cases (p : Params) (w : Cmd) :
    (opcodeOf (cmdOpc w) = none ∧ decode p w = .error .illegal) ∨
    (∃ o, opcodeOf (cmdOpc w) = some o ∧ w &&& maskOf p o ≠ matchOf o ∧ decode p w = .error .rsv) ∨
    (∃ o, opcodeOf (cmdOpc w) = some o ∧ w &&& maskOf p o = matchOf o ∧ decode p w = .instr (operandsOf w o)) := by
  cases h : opcodeOf (cmdOpc w) with
  | none => exact .inl ⟨rfl, by simp [decode, h]⟩
  | some o =>
    by_cases m : w &&& maskOf p o = matchOf o
    · exact .inr (.inr ⟨o, rfl, m, by simp [decode, h, m]⟩)
    · exact .inr (.inl ⟨o, rfl, m, by simp [decode, h, m]⟩)

/-- A word that decodes to an instruction matches its operation's row (R76). -/
theorem decode_instr {p : Params} {w : Cmd} {i : Instr} (h : decode p w = .instr i) :
    ∃ o, w &&& maskOf p o = matchOf o ∧ i = operandsOf w o ∧ cmdOpc w = opcByte o := by
  rcases decode_cases p w with ⟨_, e⟩ | ⟨o, _, _, e⟩ | ⟨o, ho, m, e⟩
  · rw [e] at h; cases h
  · rw [e] at h; cases h
  · rw [e] at h
    exact ⟨o, m, by cases h; rfl, opcodeOf_eq_some ho⟩

/-- A word that matches a row decodes to that operation with the word's operands (R76, R77). -/
theorem decode_of_matches {p : Params} {w : Cmd} {o : Opcode} (m : w &&& maskOf p o = matchOf o) :
    decode p w = .instr (operandsOf w o) := by
  have ho : cmdOpc w = opcByte o := ((matches_iff p w o).mp m).1
  simp [decode, ho, m]

/-- The two halves of an `IMM` that carries `W` and `H` (R72). -/
theorem imm_halves (w h : BitVec 16) :
    (w ++ h : Word).extractLsb' 16 16 = w ∧ (w ++ h : Word).extractLsb' 0 16 = h := by
  constructor <;> (ext j hj; simp; try grind)

/-- An `IMM` is its two halves. -/
theorem imm_of_halves (x : Word) : (x.extractLsb' 16 16 ++ x.extractLsb' 0 16 : Word) = x := by
  ext j hj
  simp
  grind

/-- `IMM` is below `2^k` exactly when the word has no bit from `32 + k` on (R76, R79). -/
theorem cmdImm_lt_iff (w : Cmd) (k : Nat) :
    (cmdImm w).toNat < 2 ^ k ↔ ∀ j, 32 + k ≤ j → w.getLsbD j = false := by
  constructor
  · intro h j hj
    by_cases h64 : j < 64
    · have b : (cmdImm w).getLsbD (j - 32) = false := by
        rw [← BitVec.testBit_toNat]
        exact Nat.testBit_lt_two_pow (Nat.lt_of_lt_of_le h (Nat.pow_le_pow_right (by omega) (by omega)))
      have e : 32 + (j - 32) = j := by omega
      have l : j - 32 < 32 := by omega
      simpa [cmdImm, l, e] using b
    · exact BitVec.getLsbD_of_ge _ _ (by omega)
  · intro h
    apply Nat.lt_pow_two_of_testBit
    intro j hj
    rw [BitVec.testBit_toNat]
    simp only [cmdImm, BitVec.getLsbD_extractLsb', h (32 + j) (by omega), Bool.and_false]

/-- The low half of a word is its three lower fields (R70). -/
theorem cmd_low (w : Cmd) : w.extractLsb' 0 32 = cmdRsv w ++ cmdSub w ++ cmdOpc w := by
  unfold cmdRsv cmdSub cmdOpc
  ext j hj
  simp
  grind

end Sys2Proof
end

