-- ==== Sys2Proof/Laws/Memory.lean ====
section
/-! SUPPORT. The laws of memory: what a read gives after a write, and that every write keeps the canonical form
and the address space. -/

namespace Sys2Proof.Machine

theorem Memory.wfFrom_mono {lo lo' : Nat} {m : Memory} (h : m.wfFrom lo = true) (le : lo' ≤ lo) :
    m.wfFrom lo' = true := by
  cases m with
  | nil => rfl
  | cons c rest =>
    simp only [Memory.wfFrom, Bool.and_eq_true, decide_eq_true_eq] at h ⊢
    exact ⟨⟨by omega, h.1.2⟩, h.2⟩

/-- Below its first address a canonical memory lists nothing. -/
theorem Memory.read_below {lo a : Nat} {m : Memory} (h : m.wfFrom lo = true) (lt : a < lo) :
    m.read a = unwritten := by
  induction m generalizing lo with
  | nil => rfl
  | cons c rest ih =>
    simp only [Memory.wfFrom, Bool.and_eq_true, decide_eq_true_eq] at h
    have ne : a ≠ c.1 := by omega
    simp only [Memory.read, ne, if_false]
    exact ih h.2 (by omega)

theorem Memory.wfFrom_write {lo a : Nat} {m : Memory} {v : Byte} (h : m.wfFrom lo = true) (le : lo ≤ a) :
    (m.write a v).wfFrom lo = true := by
  induction m generalizing lo with
  | nil =>
    unfold Memory.write
    split <;> simp_all [Memory.wfFrom]
  | cons c rest ih =>
    obtain ⟨x, b⟩ := c
    have h0 := h
    simp only [Memory.wfFrom, Bool.and_eq_true, decide_eq_true_eq] at h
    obtain ⟨⟨hx, hb⟩, hr⟩ := h
    simp only [Memory.write]
    split
    · split
      · exact h0
      · simp_all [Memory.wfFrom]
    · split
      · split
        · exact Memory.wfFrom_mono hr (by omega)
        · simp_all [Memory.wfFrom]
      · simp only [Memory.wfFrom, Bool.and_eq_true, decide_eq_true_eq]
        exact ⟨⟨hx, hb⟩, ih hr (by omega)⟩

/-- A write keeps the canonical form. -/
theorem Memory.wf_write {m : Memory} (a : Nat) (v : Byte) (h : m.wf = true) : (m.write a v).wf = true :=
  Memory.wfFrom_write h (Nat.zero_le a)

theorem Memory.read_write_from {lo a : Nat} {m : Memory} (v : Byte) (x : Nat) (h : m.wfFrom lo = true) :
    (m.write a v).read x = if x = a then v else m.read x := by
  induction m generalizing lo with
  | nil =>
    unfold Memory.write
    split <;> simp_all [Memory.read]
  | cons c rest ih =>
    obtain ⟨y, b⟩ := c
    have h0 := h
    simp only [Memory.wfFrom, Bool.and_eq_true, decide_eq_true_eq] at h
    obtain ⟨⟨_, _⟩, hr⟩ := h
    have hbelow : a < y → Memory.read ((y, b) :: rest) a = unwritten := fun lt => by
      have ne : a ≠ y := by omega
      simp only [Memory.read, ne, if_false]
      exact Memory.read_below hr (by omega)
    have hgone : a = y → Memory.read rest a = unwritten := fun e => Memory.read_below hr (by omega)
    simp only [Memory.write]
    split
    · split
      · split <;> simp_all
      · simp [Memory.read]
    · split
      · split
        · subst_vars
          by_cases hx : x = y <;> simp_all [Memory.read]
        · subst_vars
          by_cases hx : x = y <;> simp_all [Memory.read]
      · simp only [Memory.read, ih hr]
        by_cases hx : x = y
        · subst hx
          have : x ≠ a := by omega
          simp_all
        · simp [hx]

/-- A read after a write gives the value written there, and every other address reads as before. -/
theorem Memory.read_write {m : Memory} (a : Nat) (v : Byte) (x : Nat) (h : m.wf = true) :
    (m.write a v).read x = if x = a then v else m.read x := Memory.read_write_from v x h

/-- A write lists nothing but the cell written and what was listed before. -/
theorem Memory.mem_write {m : Memory} {a : Nat} {v : Byte} {c : Host.Cell} (h : c ∈ m.write a v) :
    c = (a, v) ∨ c ∈ m := by
  induction m with
  | nil =>
    unfold Memory.write at h
    split at h <;> simp_all
  | cons d rest ih =>
    simp only [Memory.write] at h
    split at h <;> split at h
    · exact .inr h
    · simpa using h
    · split at h
      · exact .inr (List.mem_cons_of_mem _ h)
      · rcases List.mem_cons.mp h with h | h
        · exact .inl h
        · exact .inr (List.mem_cons_of_mem _ h)
    · rcases List.mem_cons.mp h with h | h
      · exact .inr (h ▸ List.mem_cons_self)
      · rcases ih h with h | h
        · exact .inl h
        · exact .inr (List.mem_cons_of_mem _ h)

/-- A write inside the address space keeps the memory inside it. -/
theorem Memory.inSpace_write {p : Params} {m : Memory} {a : Nat} (v : Byte) (h : m.inSpace p = true)
    (lt : a < 2 ^ p.addrW) : (m.write a v).inSpace p = true := by
  simp only [Memory.inSpace, List.all_eq_true, decide_eq_true_eq] at h ⊢
  intro c hc
  rcases Memory.mem_write hc with rfl | hc
  · exact lt
  · exact h c hc

theorem portAddr_lt (p : Params) (a : Nat) : portAddr p a < 2 ^ p.addrW := Nat.mod_lt _ (Nat.two_pow_pos _)

theorem byteAddr_lt (p : Params) (b : Word) (i : Nat) : byteAddr p b i < 2 ^ p.addrW := portAddr_lt p _

/-- A host write keeps the memory canonical and in its space. -/
theorem hostWrite_ok {p : Params} {m : Memory} (c : Host.Cell) (h : m.wf = true ∧ m.inSpace p = true) :
    (hostWrite p m c).wf = true ∧ (hostWrite p m c).inSpace p = true :=
  ⟨Memory.wf_write _ _ h.1, Memory.inSpace_write _ h.2 (portAddr_lt p _)⟩

/-- The host's writes of a command keep the memory canonical and in its space. -/
theorem hostWrites_ok {p : Params} {m : Memory} (cs : List Host.Cell) (h : m.wf = true ∧ m.inSpace p = true) :
    (hostWrites p m cs).wf = true ∧ (hostWrites p m cs).inSpace p = true := by
  induction cs generalizing m with
  | nil => exact h
  | cons c cs ih => exact ih (hostWrite_ok c h)

end Sys2Proof.Machine
end

