-- ==== Sys2Proof/Laws/Exec.lean ====
section
/-! SUPPORT. What each meaning can do, and what a step can do, said once. -/

namespace Sys2Proof.Machine

/-- CUR_INIT raises E_NOBUF, or makes a fresh cursor (41_cursor.md R112). -/
theorem execCurInit_cases (s : State) :
    (s.bufNull = true ∧ execCurInit s = .next (raiseCmdError .noBuf s)) ∨
    (s.bufNull = false ∧ execCurInit s = .next { s with
      curBase := s.bufBase, curLen := s.bufLen, curByte := 0#32, curBit := 0#3, curValid := true }) := by
  cases h : s.bufNull
  · exact .inr ⟨rfl, by simp [execCurInit, h]⟩
  · exact .inl ⟨rfl, by simp [execCurInit, h]⟩

/-- CUR_READ raises E_NOCUR, or is degenerate, or reads a field (R113). -/
theorem execCurRead_cases (n : BitVec 6) (s : State) :
    (s.curValid = false ∧ execCurRead n s = .next (raiseCmdError .noCur s)) ∨
    (s.curValid = true ∧ ¬ Reads n ∧ execCurRead n s = .next { s with res := 0#32 }) ∨
    (s.curValid = true ∧ Reads n ∧ execCurRead n s = .next (writeField
      (readField (memRead s s.curBase) s.curLen.toNat n.toNat s.curByte.toNat s.curBit.toNat) s)) := by
  cases h : s.curValid
  · exact .inl ⟨rfl, by simp [execCurRead, h]⟩
  · by_cases d : n.toNat = 0 ∨ maxField < n.toNat
    · exact .inr (.inl ⟨rfl, by simp only [Reads, maxField] at *; omega, by simp [execCurRead, h, d]⟩)
    · exact .inr (.inr ⟨rfl, by simp only [Reads, maxField] at *; omega, by simp [execCurRead, h, d]⟩)

/-- CUR_FOFF raises E_NOCUR, or reports the consumed bytes (R114). -/
theorem execCurFoff_cases (s : State) :
    (s.curValid = false ∧ execCurFoff s = .next (raiseCmdError .noCur s)) ∨
    (s.curValid = true ∧ execCurFoff s =
      .next { s with res := BitVec.ofNat 32 (fullOffset s.curByte.toNat s.curBit.toNat) }) := by
  cases h : s.curValid
  · exact .inl ⟨rfl, by simp [execCurFoff, h]⟩
  · exact .inr ⟨rfl, by simp [execCurFoff, h]⟩

/-- HDR_DEC fails with no request, or fails after the three signature bytes, or takes the eight bytes of the header
(42_header.md R131, R135); the offset check never fails (R132). -/
theorem execHdrDec_cases (noOut : Bool) (s : State) :
    ((s.bufNull = true ∨ noOut = true ∨ s.bufLen.toNat < 8) ∧ execHdrDec noOut s = .next (hdrFail s)) ∨
    (¬ (s.bufNull = true ∨ noOut = true ∨ s.bufLen.toNat < 8) ∧ ¬ HdrAccepts s noOut ∧
      execHdrDec noOut s = .next (hdrFail (logReads s s.bufBase [0, 1, 2]))) ∨
    (HdrAccepts s noOut ∧ execHdrDec noOut s =
      .next (hdrSucceed (hdrByte s 3) (hdrByte s 4) (hdrByte s 5) (hdrByte s 6) (hdrByte s 7)
        (logReads s s.bufBase [0, 1, 2, 3, 4, 5, 6, 7]))) := by
  by_cases g : s.bufNull = true ∨ noOut = true ∨ s.bufLen.toNat < hdrSize
  · exact .inl ⟨g, by simp only [execHdrDec, g, if_true]⟩
  · have hlen : 8 ≤ s.bufLen.toNat := by simp only [hdrSize] at g; omega
    have hrun : execHdrDec noOut s =
        if [hdrByte s 0, hdrByte s 1, hdrByte s 2] ≠ sigBytes then
          .next (hdrFail (logReads s s.bufBase [0, 1, 2]))
        else .next (hdrSucceed (hdrByte s 3) (hdrByte s 4) (hdrByte s 5) (hdrByte s 6) (hdrByte s 7)
          (logReads s s.bufBase [0, 1, 2, 3, 4, 5, 6, 7])) := by
      have r0 := rd8_aligned (memRead s s.bufBase) s.bufLen.toNat privStart rfl (by simp only [privStart]; omega)
      have r1 := rd8_aligned (memRead s s.bufBase) s.bufLen.toNat ⟨1, 0, [0]⟩ rfl (by simp only []; omega)
      have r2 := rd8_aligned (memRead s s.bufBase) s.bufLen.toNat ⟨2, 0, [0, 1]⟩ rfl (by simp only []; omega)
      have r3 := rd8_aligned (memRead s s.bufBase) s.bufLen.toNat ⟨3, 0, [0, 1, 2]⟩ rfl (by simp only []; omega)
      have r4 := rd8_aligned (memRead s s.bufBase) s.bufLen.toNat ⟨4, 0, [0, 1, 2, 3]⟩ rfl (by simp only []; omega)
      have r5 := rd8_aligned (memRead s s.bufBase) s.bufLen.toNat ⟨5, 0, [0, 1, 2, 3, 4]⟩ rfl (by simp only []; omega)
      have r6 := rd8_aligned (memRead s s.bufBase) s.bufLen.toNat ⟨6, 0, [0, 1, 2, 3, 4, 5]⟩ rfl
        (by simp only []; omega)
      have r7 := rd8_aligned (memRead s s.bufBase) s.bufLen.toNat ⟨7, 0, [0, 1, 2, 3, 4, 5, 6]⟩ rfl
        (by simp only []; omega)
      simp only [privStart, List.nil_append, List.cons_append, Nat.zero_add, Nat.reduceAdd] at r0 r1 r2 r3 r4 r5 r6 r7
      have ho : ¬ (fullOffset 8 0 ≠ hdrSize) := by decide
      simp only [execHdrDec, g, if_false, privStart, r0, r1, r2, r3, r4, r5, r6, r7, ho, hdrByte]
      rfl
    have hsig : [hdrByte s 0, hdrByte s 1, hdrByte s 2] = sigBytes ↔ HdrAccepts s noOut := by
      have hn : s.bufNull = false := by cases h : s.bufNull <;> simp_all
      have ho : noOut = false := by cases h : noOut <;> simp_all
      simp [HdrAccepts, sigBytes, hn, ho, hlen]
    by_cases a : HdrAccepts s noOut
    · exact .inr (.inr ⟨a, by rw [hrun]; simp [hsig.mpr a]⟩)
    · exact .inr (.inl ⟨by simpa only [hdrSize] using g, a, by rw [hrun]; simp [mt hsig.mp a]⟩)

/-- What a step can do: nothing when no event is there; a reset; a host write; a command that decoding turns away;
or the decoded instruction. -/
theorem step_cases (s : State) :
    (s.inbox = [] ∧ step s = .next s) ∨
    (∃ rest, s.inbox = .reset :: rest ∧ step s = .next (resetRegisters { s with inbox := rest })) ∨
    (∃ c rest, s.inbox = .write c :: rest ∧
      step s = .next { s with inbox := rest, mem := hostWrite s.params s.mem c }) ∨
    (∃ w ws rest e, s.inbox = .command w ws :: rest ∧ decode s.params w = .error e ∧
      step s = .next (endCmd ws (raiseCmdError e (beginCmd ws rest s)))) ∨
    (∃ w ws rest i, s.inbox = .command w ws :: rest ∧ decode s.params w = .instr i ∧
      step s = endOutcome ws (exec i (beginCmd ws rest s))) := by
  cases h : s.inbox with
  | nil => exact .inl ⟨rfl, by simp [step, h]⟩
  | cons ev rest =>
    cases ev with
    | reset => exact .inr (.inl ⟨rest, rfl, by simp [step, h]⟩)
    | write c => exact .inr (.inr (.inl ⟨c, rest, rfl, by simp [step, h]⟩))
    | command w ws =>
      cases d : decode s.params w with
      | error e =>
        exact .inr (.inr (.inr (.inl ⟨w, ws, rest, e, rfl, d, by simp [step, h, runCmd, d, endOutcome]⟩)))
      | instr i => exact .inr (.inr (.inr (.inr ⟨w, ws, rest, i, rfl, d, by simp [step, h, runCmd, d]⟩)))

end Sys2Proof.Machine
end

