-- ==== Sys2Proof/Laws/PerInstr.lean ====
section
/-! SUPPORT. What holds of every instruction as syntax, one lemma per constructor. -/

namespace Sys2Proof.Laws.EncodedFields

/-- An instruction's word carries its operation's code, zeros in `RSV`, and zeros in every bit of `SUB` that the
operation reserves (30_encoding.md R70, R72). -/
def Statement (i : Instr) : Prop :=
  cmdOpc (encode i) = opcByte (opcodeOfInstr i) ∧ cmdRsv (encode i) = 0#16 ∧
  cmdSub (encode i) &&& subReserved (opcodeOfInstr i) = 0#8

theorem ofSub (i : Instr) (h : encodeSub i &&& subReserved (opcodeOfInstr i) = 0#8) : Statement i :=
  ⟨by simp [encode], by simp [encode], by simpa [encode] using h⟩

theorem clrErr : Statement .clrErr := ofSub _ (by decide)
theorem sizeDec (w h : BitVec 16) : Statement (.sizeDec w h) := ofSub _ (by simp [encodeSub])
theorem sizeEnc (w h : BitVec 16) : Statement (.sizeEnc w h) := ofSub _ (by simp [encodeSub])
theorem bufBase (base : Word) (null : Bool) : Statement (.bufBase base null) :=
  ofSub _ (by revert null; simp only [encodeSub, opcodeOfInstr]; decide)
theorem bufLen (len : Word) : Statement (.bufLen len) := ofSub _ (by simp [encodeSub])
theorem curInit : Statement .curInit := ofSub _ (by decide)
theorem curRead (n : BitVec 6) : Statement (.curRead n) := ofSub _ (by revert n; decide)
theorem curFoff : Statement .curFoff := ofSub _ (by decide)
theorem hdrDec (noOut : Bool) : Statement (.hdrDec noOut) := ofSub _ (by cases noOut <;> rfl)

end Sys2Proof.Laws.EncodedFields
end

