-- ==== Sys2Proof/Tests/Slice0.lean ====
section
/-! SUPPORT. The model's own tests: expected values from the spec's worked encodings and vectors (30_encoding.md,
95_test_vectors.md), and for each statement with hypotheses a concrete state that meets them. -/

set_option maxRecDepth 4000

namespace Sys2Proof.Tests

open Sys2Proof Sys2Proof.Machine

/-- A field of the next state. -/
def after {α : Type} (f : State → α) (o : Host.Outcome State Fault Refusal) : Option α := (nextOf o).map f

/-- Reset with one command word on the command port. -/
def send (s : State) (w : Cmd) : State := { s with inbox := [.command w []] }

/-- The buffer of V-CUR at 0x1000 and a cursor over its first `len` bytes. -/
def cur (len byte : Word) (bit : BitVec 3) : State :=
  { State.reset with
    mem := [(0x1000, 0xB4#8), (0x1001, 0x5A#8), (0x1002, 0xC3#8), (0x1003, 0x0F#8), (0x1004, 0xFF#8), (0x1005, 0x81#8)]
    bufBase := 0x1000#32, bufNull := false, bufLen := len
    curBase := 0x1000#32, curLen := len, curByte := byte, curBit := bit, curValid := true }

/-- Eight bytes at 0x4000 as the described buffer (V-HDR). -/
def hdr (b0 b1 b2 b3 b4 b5 b6 b7 : Byte) : State :=
  { State.reset with
    mem := [(0x4000, b0), (0x4001, b1), (0x4002, b2), (0x4003, b3), (0x4004, b4), (0x4005, b5), (0x4006, b6),
      (0x4007, b7)]
    bufBase := 0x4000#32, bufNull := false, bufLen := 8#32 }

/-- A 16-bit platform (95_test_vectors.md). -/
def p16 : Params := { sizeW := 16, addrW := 16 }

/-- Reset on a 16-bit platform. -/
def reset16 : State := { State.reset with params := p16 }

/-! ## Well-formedness: each check refuses an ill-formed term -/

theorem test_wf_base_refused : (Instr.bufBase 0x10000#32 false).wf p16 = false := by decide
theorem test_wf_base_accepted : (Instr.bufBase 0xFFFF#32 true).wf p16 = true := by decide
theorem test_wf_len_refused : (Instr.bufLen 0x10000#32).wf p16 = false := by decide
theorem test_wf_len_accepted : (Instr.bufLen 0xFFFF#32).wf p16 = true := by decide

/-! ## Decoding: words written out field by field from 30_encoding.md R70, R72 and R75 -/

theorem test_decode_clrErr : decode Params.std
    (0b00000000000000000000000000000000#32 ++ 0b0000000000000000#16 ++ 0b00000000#8 ++ 0b00000001#8) =
    .instr .clrErr := by decide
theorem test_decode_sizeDec : decode Params.std
    (0b00000000000001000000000000000011#32 ++ 0b0000000000000000#16 ++ 0b00000000#8 ++ 0b00010000#8) =
    .instr (.sizeDec 4#16 3#16) := by decide
theorem test_decode_sizeEnc : decode Params.std
    (0b10000000000000000000000000000001#32 ++ 0b0000000000000000#16 ++ 0b00000000#8 ++ 0b00010001#8) =
    .instr (.sizeEnc 0x8000#16 1#16) := by decide
theorem test_decode_bufBase : decode Params.std
    (0b10000000000000000010000000000001#32 ++ 0b0000000000000000#16 ++ 0b00000001#8 ++ 0b00100000#8) =
    .instr (.bufBase 0x80002001#32 true) := by decide
theorem test_decode_bufLen : decode Params.std
    (0b10000000000000000000000000001000#32 ++ 0b0000000000000000#16 ++ 0b00000000#8 ++ 0b00100001#8) =
    .instr (.bufLen 0x80000008#32) := by decide
theorem test_decode_curInit : decode Params.std
    (0b00000000000000000000000000000000#32 ++ 0b0000000000000000#16 ++ 0b00000000#8 ++ 0b00110000#8) =
    .instr .curInit := by decide
theorem test_decode_curRead : decode Params.std
    (0b00000000000000000000000000000000#32 ++ 0b0000000000000000#16 ++ 0b00100001#8 ++ 0b00110001#8) =
    .instr (.curRead 33#6) := by decide
theorem test_decode_curFoff : decode Params.std
    (0b00000000000000000000000000000000#32 ++ 0b0000000000000000#16 ++ 0b00000000#8 ++ 0b00110010#8) =
    .instr .curFoff := by decide
theorem test_decode_hdrDec : decode Params.std
    (0b00000000000000000000000000000000#32 ++ 0b0000000000000000#16 ++ 0b00000001#8 ++ 0b01000000#8) =
    .instr (.hdrDec true) := by decide

/-- V-ERR X2 to X6, X13 and V-BUF B5: the words that decoding rejects, by name. -/
theorem test_decode_rejects :
    decode Params.std 0x0000000000000099#64 = .error .illegal ∧
    decode Params.std 0x0000000000004831#64 = .error .rsv ∧
    decode Params.std 0x0000000000010010#64 = .error .rsv ∧
    decode Params.std 0x0000000100000030#64 = .error .rsv ∧
    decode Params.std 0x0000000000000220#64 = .error .rsv ∧
    decode Params.std 0x0000000000000101#64 = .error .rsv ∧
    decode p16 0x0001000000000021#64 = .error .rsv := by decide

/-- The host's view of a table row. -/
theorem test_table_word : decodeTableWord 64 0x0004000300000010 = some (.sizeDec 4#16 3#16) ∧
    decodeTableWord 64 0x99 = none ∧ decodeTableWord 8 0x30 = some .curInit := by decide

/-- A table word runs as the first command after reset. -/
theorem test_withFetchWord : after State.szVal (step (State.reset.withFetchWord 64 0x0004000300000010)) = some 12#32 := by
  decide

/-! ## One step each: the vectors of 95_test_vectors.md -/

/-- X12, its second step. -/
theorem test_clrErr : after (fun s => (s.err, s.errCode))
    (step (send { State.reset with err := true, errCode := 1#4 } 0x0000000000000001#64)) = some (false, 0#4) := by decide
/-- X13: a reserved bit sets instead of clearing. -/
theorem test_clrErr_reserved : after (fun s => (s.err, s.errCode))
    (step (send State.reset 0x0000000000000101#64)) = some (true, 2#4) := by decide
/-- S21: a product equal to SIZE_MAX fits. -/
theorem test_sizeDec_max : after (fun s => (s.szVal, s.szOvf)) (step (send reset16 0x00FF010100000010#64)) =
    some (0xFFFF#32, false) := by decide
/-- S20. -/
theorem test_sizeDec_overflow : after (fun s => (s.szVal, s.szOvf)) (step (send reset16 0x0100010000000010#64)) =
    some (0#32, true) := by decide
/-- S21: the product fits, the header does not. -/
theorem test_sizeEnc_overflow : after (fun s => (s.szVal, s.szOvf)) (step (send reset16 0x00FF010100000011#64)) =
    some (0#32, true) := by decide
/-- S5. -/
theorem test_sizeEnc_largest : after (fun s => (s.szVal, s.szOvf)) (step (send State.reset 0xFFFFFFFF00000011#64)) =
    some (0xFFFE0009#32, false) := by decide
/-- B1. -/
theorem test_bufBase : after (fun s => (s.bufBase, s.bufNull)) (step (send State.reset 0x0000200000000020#64)) =
    some (0x2000#32, false) := by decide
/-- B6: the cursor is a snapshot. -/
theorem test_bufBase_snapshot : after (fun s => (s.bufBase, s.curBase))
    (step (send (cur 6#32 0#32 0#3) 0x0000300000000020#64)) = some (0x3000#32, 0x1000#32) := by decide
/-- B4. -/
theorem test_bufLen : after State.bufLen (step (send reset16 0x0000FFFF00000021#64)) = some 0xFFFF#32 := by decide
/-- B5. -/
theorem test_bufLen_reserved : after (fun s => (s.bufLen, s.errCode)) (step (send reset16 0x0001000000000021#64)) =
    some (0#32, 2#4) := by decide
/-- R112's example, over a cursor that was elsewhere. -/
theorem test_curInit : after (fun s => (s.curBase, s.curLen, s.curByte, s.curBit))
    (step (send (cur 6#32 3#32 5#3) 0x0000000000000030#64)) = some (0x1000#32, 6#32, 0#32, 0#3) := by decide
/-- X10. -/
theorem test_curInit_noBuf : after (fun s => (s.curValid, s.errCode)) (step (send State.reset 0x0000000000000030#64)) =
    some (false, 4#4) := by decide
/-- C8, its second step: 32 bits over five bytes. -/
theorem test_curRead_five_bytes : after (fun s => (s.res, s.curByte, s.curBit, s.portLog.length))
    (step (send (cur 6#32 0#32 1#3) 0x0000000000002031#64)) = some (0xB4B5861F#32, 4#32, 1#3, 5) := by decide
/-- C15, its second step: cut short, not shifted, no error. -/
theorem test_curRead_truncated : after (fun s => (s.res, s.curByte, s.curBit, s.err))
    (step (send (cur 2#32 0#32 4#3) 0x0000000000001031#64)) = some (0xB5A#32, 2#32, 0#3, false) := by decide
/-- C17. -/
theorem test_curFoff : after State.res (step (send (cur 6#32 0#32 3#3) 0x0000000000000032#64)) = some 1#32 := by decide
/-- X9. -/
theorem test_curFoff_noCur : after State.errCode (step (send State.reset 0x0000000000000032#64)) = some 3#4 := by decide
/-- H8. -/
theorem test_hdrDec : after (fun s => (s.hdrOk, s.hdrFlags, s.hdrWidth, s.hdrHeight))
    (step (send (hdr 0x4D 0x4D 0x52 0xFF 0xFF 0xFF 0x12 0x34) 0x0000000000000040#64)) =
    some (true, 0xFF#8, 0xFFFF#16, 0x1234#16) := by decide
/-- H5: three bytes are read and no more. -/
theorem test_hdrDec_shifted : after (fun s => (s.hdrOk, s.hdrCons, s.portLog))
    (step (send (hdr 0x00 0x4D 0x4D 0x52 0x01 0x00 0x04 0x00) 0x0000000000000040#64)) =
    some (false, 0#32, [0x4000, 0x4001, 0x4002]) := by decide

/-! ## The ports and the assembler -/

/-- C24: a buffer that passes the top of the address space. -/
theorem test_wrap : byteAddr Params.std 0xFFFFFFFF#32 1 = 0 := by decide
/-- X11, its second step, through STATUS: ERR, the first code, BUF_NULL. -/
theorem test_status : after (fun s => readPort s 0x00#8)
    (step (send { State.reset with err := true, errCode := 1#4 } 0x0000000000000831#64)) = some 0x211#32 := by decide
theorem test_params_port : readPort State.reset 0x0D#8 = 0x2020#32 := by decide
/-- A host write between commands. -/
theorem test_host_write : after State.mem (step { State.reset with inbox := [.write (0x1000, 0xB4#8)] }) =
    some [(0x1000, 0xB4#8)] := by decide
/-- A byte that the host writes during the command is a free value, and the write has landed after it. -/
theorem test_race : after (fun s => (s.res, s.mem.read 0x1000))
    (step { cur 6#32 0#32 0#3 with inbox := [.command 0x0000000000000831#64 [(0x1000, 7#8)]], draws := 5 }) =
    some ((readField (fun i => Config.racedByte 5 i) 6 8 0 0).acc, 7#8) := rfl
/-- R82 and a comment. -/
theorem test_assemble_pseudo : assembleLine Params.std "hdr.parse 0x2000, 8 ; P1".toList =
    some [0x0000200000000020#64, 0x0000000800000021#64, 0x0000000000000040#64] := by decide
/-- An operand out of range, and the directive that places any word (P4). -/
theorem test_assemble_range : assembleLine Params.std "cur.read 64".toList = none ∧
    assembleLine Params.std ".word 0x4831".toList = some [0x0000000000004831#64] := by decide

/-! ## Witnesses: the hypotheses of the statements can be met -/

theorem witness_EncodeThenDecode : (Instr.bufBase 0xFFFF#32 true).wf p16 = true := by decide
theorem witness_DecodeThenEncode : decode p16 0x0000FFFF00000021#64 = .instr (.bufLen 0xFFFF#32) := by decide
theorem witness_UnassignedOpcodeIsIllegal : (send State.reset 0#64).inbox = .command 0#64 [] :: [] ∧
    (0#64 : Cmd).extractLsb' 0 8 ∉ assignedOpcs ∧ (0xFF#64 : Cmd).extractLsb' 0 8 ∉ assignedOpcs :=
  ⟨rfl, by decide, by decide⟩
theorem witness_ReservedBitRaisesRsv : (send State.reset 0x4831#64).inbox = .command 0x4831#64 [] :: [] ∧
    (0x4831#64 : Cmd).extractLsb' 0 8 ∈ assignedOpcs ∧ ReservedBitSet State.reset.params 0x4831#64 :=
  ⟨rfl, by decide, by unfold ReservedBitSet; decide⟩
theorem witness_ErrorPriority : ∀ w ∈ [(0x99#64 : Cmd), 0x4831#64, 0x30#64, 0x831#64, 0x32#64, 0x01#64],
    (send State.reset w).inbox = .command w [] :: [] ∧ State.reset.err = false ∧ State.reset.errCode = 0#4 :=
  fun _ _ => ⟨rfl, rfl, rfl⟩
theorem witness_ErrorPriority_clauses : (0x99#64 : Cmd).extractLsb' 0 8 ∉ assignedOpcs ∧
    ReservedBitSet State.reset.params 0x4831#64 ∧ ¬ ReservedBitSet State.reset.params 0x30#64 ∧
    ¬ ReservedBitSet State.reset.params 0x831#64 ∧ ¬ ReservedBitSet State.reset.params 0x01#64 ∧
    State.reset.bufNull = true ∧ State.reset.curValid = false := by
  refine ⟨by decide, ?_, ?_, ?_, ?_, rfl, rfl⟩ <;> (unfold ReservedBitSet; decide)
theorem witness_AssembledWordsDecode : assemble Params.std (.bufSet 0x2000 8) =
    some [0x0000200000000020#64, 0x0000000800000021#64] ∧ ∀ v, AsmStmt.bufSet 0x2000 8 ≠ .word v :=
  ⟨by decide, fun _ h => by cases h⟩
theorem witness_AssemblerRefusesOutOfRange : Params.std.Legal ∧ ({ sizeW := 16, addrW := 1 } : Params).Legal := by decide
theorem witness_StepRunsDecoded : (send State.reset 0x1#64).inbox = .command 0x1#64 [] :: [] ∧
    decode State.reset.params 0x1#64 = .instr .clrErr := by decide
theorem witness_IdleLosesNoState : State.reset.inbox = [] := by decide
theorem witness_ParametersNeverChange : step State.reset = .next State.reset := rfl
theorem witness_ResetEvent : ({ cur 6#32 3#32 1#3 with inbox := [.reset] } : State).inbox = .reset :: [] := by decide
theorem witness_BufferAddressWraps : (0xFFFFFFFF#32 : Word).toNat + 1 = 2 ^ State.reset.params.addrW ∧
    0 ∉ State.reset.racing ∧ ((0xFFFFFFFF#32 : Word).toNat + 1) % 2 ^ State.reset.params.addrW ∉ State.reset.racing := by
  decide
theorem witness_HostWriteIsSeen :
    ({ cur 6#32 0#32 0#3 with inbox := [.write (0x1001, 0#8)] } : State).inbox = .write (0x1001, 0#8) :: [] ∧
    (cur 6#32 0#32 0#3).mem.wf = true := by decide
theorem witness_CommandsNeverWriteMemory : (send (cur 6#32 0#32 0#3) 0x831#64).inbox = .command 0x831#64 [] :: [] := by
  decide
theorem witness_OnlyTwoCommandsReachMemory : (∀ n, Instr.curInit ≠ .curRead n) ∧ ∀ o, Instr.curInit ≠ .hdrDec o := by
  decide
theorem witness_RequestsPerCommand : DecodesTo Params.std 0x2031#64 .curRead ∧ DecodesTo Params.std 0x40#64 .hdrDec ∧
    ¬ DecodesTo Params.std 0x30#64 .curRead ∧ ¬ DecodesTo Params.std 0x30#64 .hdrDec := by
  have h : decode Params.std 0x30#64 = .instr .curInit := by decide
  refine ⟨⟨.curRead 32#6, by decide, rfl⟩, ⟨.hdrDec false, by decide, rfl⟩, ?_, ?_⟩ <;>
    (rintro ⟨i, hi, ho⟩; rw [h] at hi; cases hi; cases ho)
theorem witness_RegisterReadPort : ({ reset16 with bufBase := 0xFFFF#32, curLen := 0xFFFF#32 } : State).params.Legal ∧
    ({ reset16 with bufBase := 0xFFFF#32, curLen := 0xFFFF#32 } : State).WidthsOk := by decide
theorem witness_ClrErrResult : State.reset.ErrorOk ∧ State.reset.err = false ∧
    (send State.reset 0x101#64).inbox = .command 0x101#64 [] :: [] ∧ (0x101#64 : Cmd).extractLsb' 0 8 = 0x01#8 ∧
    (0x101#64 : Cmd) ≠ 0x1#64 := by decide
theorem witness_RaiseEffect : decode Params.std 0x99#64 = .error .illegal ∧ decode Params.std 0x4831#64 = .error .rsv ∧
    decode Params.std 0x831#64 = .instr (.curRead 8#6) ∧ decode Params.std 0x32#64 = .instr .curFoff ∧
    decode Params.std 0x30#64 = .instr .curInit ∧ State.reset.curValid = false ∧ State.reset.bufNull = true := by decide
theorem witness_ErrorStateIsSticky : ({ State.reset with err := true, errCode := 3#4 } : State).ErrorOk := by decide
theorem witness_ErrorStateIsSticky_rises : State.reset.err = false ∧
    after State.err (step (send State.reset 0x30#64)) = some true ∧ Raises (send State.reset 0x30#64) 0x30#64 .noBuf :=
  ⟨rfl, by decide, .inr (.inr ⟨rfl, rfl, by decide⟩)⟩
theorem witness_ErrorDoesNotBlock : ({ State.reset with err := true, errCode := 3#4 } : State).err = true ∧
    Instr.curFoff ≠ .clrErr := by decide
theorem witness_SizeLaws : reset16.params.Legal ∧ State.reset.params.Legal ∧ State.reset.params.sizeW = 32 := by decide
theorem witness_WiderSizeTypeChangesNothing : 32 ≤ State.reset.params.sizeW ∧
    Instr.sizeEnc 1 2 ∈ [Instr.sizeDec 1 2, .sizeEnc 1 2] ∧ reset16.params.Legal := by decide
theorem witness_BufBaseResult : (0xFFFF#32 : Word).toNat < 2 ^ reset16.params.addrW ∧ State.reset.bufNull = true ∧
    ∀ c n, Instr.hdrDec false ≠ .bufBase c n := by
  refine ⟨by decide, by decide, fun _ _ h => by cases h⟩
theorem witness_BufLenResult : (0xFFFF#32 : Word).toNat < 2 ^ reset16.params.sizeW ∧ p16.sizeW = 16 ∧
    (cur 0#32 0#32 0#3).bufLen = 0#32 ∧ (cur 0#32 0#32 0#3).bufNull = false := by decide
theorem witness_CurInitResult : (cur 6#32 0#32 0#3).bufNull = false ∧ State.reset.bufNull = true := by decide
theorem witness_CurReadWithoutField : State.reset.curValid = false ∧ (cur 6#32 0#32 0#3).curValid = true ∧
    32 < (33#6 : BitVec 6).toNat := by decide
/-- A read that ends exactly at the end of the buffer (C20, its last step), and a one-bit read. -/
theorem witness_CurReadClosedForm : (cur 6#32 4#32 4#3).curValid = true ∧ Reads 12#6 ∧
    curPos (cur 6#32 4#32 4#3) + (12#6 : BitVec 6).toNat ≤ curBits (cur 6#32 4#32 4#3) ∧ Reads 1#6 := by decide
/-- Cut short with four bits left, and with none. -/
theorem witness_CurReadTruncated : (cur 2#32 1#32 4#3).curValid = true ∧ Reads 5#6 ∧ (cur 2#32 1#32 4#3).CursorOk ∧
    curBits (cur 2#32 1#32 4#3) < curPos (cur 2#32 1#32 4#3) + (5#6 : BitVec 6).toNat ∧
    (cur 2#32 2#32 0#3).CursorOk ∧
    curBits (cur 2#32 2#32 0#3) < curPos (cur 2#32 2#32 0#3) + (1#6 : BitVec 6).toNat := by decide
theorem witness_AlignedReadIsBigEndian : (cur 6#32 2#32 0#3).curBit = 0#3 ∧ (32#6 : BitVec 6).toNat = 8 * 4 ∧
    (cur 6#32 2#32 0#3).curByte.toNat + 4 ≤ (cur 6#32 2#32 0#3).curLen.toNat ∧
    memRead (cur 6#32 0#32 0#3) 0x1000#32 0 = 0xB4#8 ∧ memRead (cur 6#32 0#32 0#3) 0x1000#32 1 = 0x5A#8 := by decide
theorem witness_CurFoffResult : State.reset.curValid = false ∧ (cur 6#32 5#32 7#3).curValid = true ∧
    (cur 6#32 5#32 7#3).CursorOk ∧ (cur 6#32 6#32 0#3).CursorOk := by decide
theorem witness_TruncationDetection : (cur 6#32 3#32 1#3).bufNull = false ∧
    exec .curInit (cur 6#32 3#32 1#3) = .next (cur 6#32 0#32 0#3) := ⟨rfl, rfl⟩
theorem witness_ReadsRoundTrip : (∀ n ∈ [32#6, 16#6], Reads n) ∧ (cur 6#32 0#32 0#3).curValid = true ∧
    curPos (cur 6#32 0#32 0#3) = 0 ∧ totalBits [32#6, 16#6] ≤ curBits (cur 6#32 0#32 0#3) := by decide
theorem witness_ReadBounds : (cur 6#32 5#32 7#3).curValid = true ∧ Reads 32#6 ∧
    (cur 6#32 5#32 7#3).curByte.toNat < (cur 6#32 5#32 7#3).curLen.toNat := by decide
theorem witness_CursorIsSnapshot : Instr.bufLen 1#32 ∈ [Instr.bufBase 2#32 true, .bufLen 1#32] := by decide
theorem witness_HdrDecClosedForm : HdrAccepts (hdr 0x4D 0x4D 0x52 0x01 0x00 0x04 0x00 0x03) false := by decide
/-- H9 (no output slot), H10 (no buffer), H3 (seven bytes) and H5 (a shifted signature). -/
theorem witness_HdrDecFailures : State.reset.bufNull = true ∧
    ({ hdr 0x4D 0x4D 0x52 1 0 4 0 3 with bufLen := 7#32 } : State).bufLen.toNat < 8 ∧
    (hdr 0x00 0x4D 0x4D 0x52 1 0 4 0).bufNull = false ∧ 8 ≤ (hdr 0x00 0x4D 0x4D 0x52 1 0 4 0).bufLen.toNat ∧
    ¬ HdrAccepts (hdr 0x00 0x4D 0x4D 0x52 1 0 4 0) false := by decide
theorem witness_HeaderRoundTrip : (hdr 0x4D 0x4D 0x52 0xFF 0xFF 0xFF 0x12 0x34).bufNull = false ∧
    (List.range 8).map (hdrByte (hdr 0x4D 0x4D 0x52 0xFF 0xFF 0xFF 0x12 0x34)) =
      [0x4D#8, 0x4D#8, 0x52#8, 0xFF#8, (0xFFFF#16).extractLsb' 8 8, (0xFFFF#16).extractLsb' 0 8,
        (0x1234#16).extractLsb' 8 8, (0x1234#16).extractLsb' 0 8] := by decide
/-- The invariant holds in a state that is not reset, with a cursor at its last bit. -/
theorem witness_StepKeepsInvariant : (cur 6#32 5#32 7#3).Inv := by decide
theorem witness_CursorInvariantsReachable : Reachable State.reset :=
  Reachable.reset Params.std [] [] (by decide) rfl rfl
theorem witness_CursorValidity : (cur 6#32 0#32 0#3).bufNull = false ∧ State.reset.curValid = false ∧
    Instr.curFoff ∈ [Instr.curRead 0#6, .curFoff] ∧
    after State.curValid (step (send { cur 6#32 0#32 0#3 with curValid := false } 0x30#64)) = some true ∧
    after State.curValid (step { cur 6#32 0#32 0#3 with inbox := [.reset] }) = some false := by decide
theorem witness_NoCommandReadsSentinels : Instr.sizeEnc 1 2 ∈ [Instr.sizeDec 1 2, .sizeEnc 1 2] ∧
    (∀ w h, Instr.hdrDec true ∉ [Instr.sizeDec w h, .sizeEnc w h]) ∧ Instr.hdrDec true = .hdrDec true ∧
    ∀ o, Instr.sizeEnc 1 2 ≠ .hdrDec o :=
  ⟨by decide, fun _ _ => by simp, rfl, fun _ => by simp⟩
theorem witness_BytePositionNeverFalls : Instr.curRead 32#6 ≠ .curInit := by decide
theorem witness_RegisterWriters : (∀ b n, Instr.clrErr ≠ .bufBase b n) ∧ Instr.clrErr ≠ .curInit ∧
    ∀ o, Instr.clrErr ≠ .hdrDec o := by
  refine ⟨?_, by decide, ?_⟩ <;> intros <;> intro h <;> cases h

end Sys2Proof.Tests
end

section
/-! The Size Calculator (40_size.md): what its two commands write, when they overflow, and R9's statement that
from `SIZE_W = 32` on neither does. -/

namespace Sys2Proof.Machine

theorem exec_sizeDec (w h : BitVec 16) (s : State) :
    exec (.sizeDec w h) s = .next (writeSize (sizeOverflows s.params (rasterSize w h)) (rasterSize w h) s) := rfl

theorem sizeOverflows_iff (p : Params) (v : Nat) : sizeOverflows p v = true ↔ 2 ^ p.sizeW ≤ v := by
  have pos : 0 < 2 ^ p.sizeW := Nat.two_pow_pos _
  rw [sizeOverflows, decide_eq_true_eq, sizeMax]
  omega

theorem sizeOverflows_eq_false_iff (p : Params) (v : Nat) : sizeOverflows p v = false ↔ v < 2 ^ p.sizeW := by
  rw [← Bool.not_eq_true, sizeOverflows_iff, Nat.not_le]

/-- The second check of R102 covers the first: adding the header makes the size no smaller. -/
theorem encOverflows_eq (p : Params) (w h : BitVec 16) :
    encOverflows p w h = sizeOverflows p (rasterSize w h + hdrSize) := by
  have covers : sizeOverflows p (rasterSize w h) = true → sizeOverflows p (rasterSize w h + hdrSize) = true := by
    simp only [sizeOverflows_iff]
    exact fun above => Nat.le_add_right_of_le above
  exact Bool.or_eq_right_iff_imp.mpr covers

theorem exec_sizeEnc (w h : BitVec 16) (s : State) :
    exec (.sizeEnc w h) s =
      .next (writeSize (sizeOverflows s.params (rasterSize w h + hdrSize)) (rasterSize w h + hdrSize) s) := by
  rw [← encOverflows_eq]
  rfl

theorem lowBits_of_lt {k v : Nat} (fits : v < 2 ^ k) : lowBits k v = BitVec.ofNat 32 v := by
  rw [lowBits, Nat.mod_eq_of_lt fits]

/-- A size that fits the size type is stored whole, without the overflow sentinel (R100). -/
theorem writeSize_of_fits {s : State} {v : Nat} (fits : v < 2 ^ s.params.sizeW) :
    writeSize (sizeOverflows s.params v) v s = { s with szOvf := false, szVal := BitVec.ofNat 32 v } := by
  simp [writeSize, (sizeOverflows_eq_false_iff _ _).mpr fits, lowBits_of_lt fits]

/-- The largest encoded size of R9. -/
theorem rasterSize_add_hdrSize_le (w h : BitVec 16) : rasterSize w h + hdrSize ≤ 0xFFFE0009 := by
  have product : w.toNat * h.toNat ≤ 65535 * 65535 :=
    Nat.mul_le_mul (Nat.le_of_lt_succ w.isLt) (Nat.le_of_lt_succ h.isLt)
  exact Nat.add_le_add_right product hdrSize

theorem encodedSize_fits {k : Nat} (wide : 32 ≤ k) (w h : BitVec 16) : rasterSize w h + hdrSize < 2 ^ k :=
  calc rasterSize w h + hdrSize ≤ 0xFFFE0009 := rasterSize_add_hdrSize_le w h
    _ < 2 ^ 32 := by decide
    _ ≤ 2 ^ k := Nat.pow_le_pow_right (by decide) wide

theorem rasterSize_fits {k : Nat} (wide : 32 ≤ k) (w h : BitVec 16) : rasterSize w h < 2 ^ k :=
  Nat.lt_of_add_right_lt (encodedSize_fits wide w h)

/-- At a width of 32 or more SIZE_DEC stores the exact product, which names no width. -/
theorem exec_sizeDec_wide {s : State} (wide : 32 ≤ s.params.sizeW) (w h : BitVec 16) :
    exec (.sizeDec w h) s = .next { s with szOvf := false, szVal := BitVec.ofNat 32 (rasterSize w h) } := by
  rw [exec_sizeDec, writeSize_of_fits (rasterSize_fits wide w h)]

theorem exec_sizeEnc_wide {s : State} (wide : 32 ≤ s.params.sizeW) (w h : BitVec 16) :
    exec (.sizeEnc w h) s = .next { s with szOvf := false, szVal := BitVec.ofNat 32 (rasterSize w h + hdrSize) } := by
  rw [exec_sizeEnc, writeSize_of_fits (encodedSize_fits wide w h)]

/-- Below a width of 32 the largest raster, 65535 by 65535, does not fit. -/
theorem largest_rasterSize_overflows {p : Params} (narrow : p.sizeW < 32) :
    sizeOverflows p (rasterSize 0xFFFF#16 0xFFFF#16) = true := by
  rw [sizeOverflows_iff]
  calc 2 ^ p.sizeW ≤ 2 ^ 31 := Nat.pow_le_pow_right (by decide) (Nat.le_of_lt_succ narrow)
    _ ≤ rasterSize 0xFFFF#16 0xFFFF#16 := by decide

theorem size_overflow_observable_iff (s : State) :
    (∃ w h t, (exec (.sizeDec w h) s = .next t ∨ exec (.sizeEnc w h) s = .next t) ∧ t.szOvf = true) ↔
      s.params.sizeW < 32 := by
  constructor
  · rintro ⟨w, h, t, ran, overflowed⟩
    by_contra notNarrow
    have wide : 32 ≤ s.params.sizeW := Nat.le_of_not_lt notNarrow
    rw [exec_sizeDec_wide wide, exec_sizeEnc_wide wide] at ran
    obtain ⟨⟨⟩⟩ | ⟨⟨⟩⟩ := ran <;> cases overflowed
  · intro narrow
    exact ⟨0xFFFF#16, 0xFFFF#16, _, .inl (exec_sizeDec ..), largest_rasterSize_overflows narrow⟩

/-- Settles O31: at every width of at least 32 both commands store their exact size, and below 32 the largest raster
overflows. -/
theorem widerSizeTypeChangesNothing : Obligations.WiderSizeTypeChangesNothing := by
  refine ⟨by decide, by decide, ?_, fun s _ => size_overflow_observable_iff s⟩
  intro s w h k wide wide' i hi
  obtain rfl | rfl : i = .sizeDec w h ∨ i = .sizeEnc w h := by simpa using hi
  case inl => exact ⟨_, _, exec_sizeDec_wide wide w h, exec_sizeDec_wide wide' w h, rfl, rfl, rfl⟩
  case inr => exact ⟨_, _, exec_sizeEnc_wide wide w h, exec_sizeEnc_wide wide' w h, rfl, rfl, rfl⟩

end Sys2Proof.Machine
end

section
/-! The error state and the cursor (10_state.md R25 to R29, R35): what a command and a step can do to them, and the
invariants that follow. -/

namespace Sys2Proof.Machine

/-! ## What a command can do -/

/-- The cursor's length, position and validity stand as they were. -/
structure SameCursor (s t : State) : Prop where
  curLen : t.curLen = s.curLen
  curByte : t.curByte = s.curByte
  curBit : t.curBit = s.curBit
  curValid : t.curValid = s.curValid

/-- ERR and ERRCODE stand as they were. -/
structure SameError (s t : State) : Prop where
  err : t.err = s.err
  errCode : t.errCode = s.errCode

theorem SameCursor.refl (s : State) : SameCursor s s := ⟨rfl, rfl, rfl, rfl⟩

theorem SameError.refl (s : State) : SameError s s := ⟨rfl, rfl⟩

/-- The error that an instruction's own check finds (60_exceptions.md R151). -/
inductive OwnError (s : State) : Instr → CmdError → Prop
  | readNoCursor (n : BitVec 6) (noCursor : s.curValid = false) : OwnError s (.curRead n) .noCur
  | foffNoCursor (noCursor : s.curValid = false) : OwnError s .curFoff .noCur
  | initNoBuffer (noBuffer : s.bufNull = true) : OwnError s .curInit .noBuf

/-- The state that CUR_READ leaves when it reads a field of `n` bits (41_cursor.md R113). -/
def fieldReadState (n : BitVec 6) (s : State) : State :=
  writeField (readField (memRead s s.curBase) s.curLen.toNat n.toNat s.curByte.toNat s.curBit.toNat) s

/-- All that a command can do to the cursor and to the error state. -/
inductive CmdEffect (s : State) : Instr → State → Prop
  | elsewhere {i : Instr} {t : State} (cursor : SameCursor s t) (error : SameError s t) : CmdEffect s i t
  | cleared : CmdEffect s .clrErr (clearCmdError s)
  | raised {i : Instr} {e : CmdError} (own : OwnError s i e) : CmdEffect s i (raiseCmdError e s)
  | cursorMade : CmdEffect s .curInit { s with
      curBase := s.bufBase, curLen := s.bufLen, curByte := 0#32, curBit := 0#3, curValid := true }
  | fieldRead {n : BitVec 6} (reads : Reads n) : CmdEffect s (.curRead n) (fieldReadState n s)

theorem exec_cmdEffect (i : Instr) (s : State) : ∃ t, exec i s = .next t ∧ CmdEffect s i t := by
  cases i with
  | clrErr => exact ⟨_, rfl, .cleared⟩
  | sizeDec w h => exact ⟨_, rfl, .elsewhere ⟨rfl, rfl, rfl, rfl⟩ ⟨rfl, rfl⟩⟩
  | sizeEnc w h => exact ⟨_, rfl, .elsewhere ⟨rfl, rfl, rfl, rfl⟩ ⟨rfl, rfl⟩⟩
  | bufBase base null => exact ⟨_, rfl, .elsewhere ⟨rfl, rfl, rfl, rfl⟩ ⟨rfl, rfl⟩⟩
  | bufLen len => exact ⟨_, rfl, .elsewhere ⟨rfl, rfl, rfl, rfl⟩ ⟨rfl, rfl⟩⟩
  | curInit =>
    obtain ⟨noBuffer, run⟩ | ⟨-, run⟩ := execCurInit_cases s
    · exact ⟨_, run, .raised (.initNoBuffer noBuffer)⟩
    · exact ⟨_, run, .cursorMade⟩
  | curRead n =>
    obtain ⟨noCursor, run⟩ | ⟨-, -, run⟩ | ⟨-, reads, run⟩ := execCurRead_cases n s
    · exact ⟨_, run, .raised (.readNoCursor n noCursor)⟩
    · exact ⟨_, run, .elsewhere ⟨rfl, rfl, rfl, rfl⟩ ⟨rfl, rfl⟩⟩
    · exact ⟨_, run, .fieldRead reads⟩
  | curFoff =>
    obtain ⟨noCursor, run⟩ | ⟨-, run⟩ := execCurFoff_cases s
    · exact ⟨_, run, .raised (.foffNoCursor noCursor)⟩
    · exact ⟨_, run, .elsewhere ⟨rfl, rfl, rfl, rfl⟩ ⟨rfl, rfl⟩⟩
  | hdrDec noOut =>
    obtain ⟨-, run⟩ | ⟨-, -, run⟩ | ⟨-, run⟩ := execHdrDec_cases noOut s <;>
      exact ⟨_, run, .elsewhere ⟨rfl, rfl, rfl, rfl⟩ ⟨rfl, rfl⟩⟩

/-- The error of an instruction's own check is one that its word raises. -/
theorem OwnError.raises {s : State} {w : Cmd} {i : Instr} {e : CmdError} (own : OwnError s i e)
    (decoded : decode s.params w = .instr i) : Raises s w e := by
  cases own with
  | readNoCursor n noCursor => exact .inr (.inl ⟨rfl, noCursor, .inl ⟨n, decoded⟩⟩)
  | foffNoCursor noCursor => exact .inr (.inl ⟨rfl, noCursor, .inr decoded⟩)
  | initNoBuffer noBuffer => exact .inr (.inr ⟨rfl, noBuffer, decoded⟩)

/-- Accepting a command writes no register, so it changes no check. -/
theorem OwnError.of_beginCmd {ws : List Host.Cell} {rest : List HostEvent} {s : State} {i : Instr} {e : CmdError}
    (own : OwnError (beginCmd ws rest s) i e) : OwnError s i e := by
  cases own with
  | readNoCursor n noCursor => exact .readNoCursor n noCursor
  | foffNoCursor noCursor => exact .foffNoCursor noCursor
  | initNoBuffer noBuffer => exact .initNoBuffer noBuffer

/-! ## What a step can do -/

/-- All that a step can do to the cursor and to the error state; an accepted instruction has its effect between
`beginCmd` and `endCmd`. -/
inductive StepEffect (s : State) : State → Prop
  | elsewhere {t : State} (cursor : SameCursor s t) (error : SameError s t) : StepEffect s t
  | reset {rest : List HostEvent} (taken : s.inbox = .reset :: rest) :
      StepEffect s (resetRegisters { s with inbox := rest })
  | rejected {w : Cmd} {ws : List Host.Cell} {rest : List HostEvent} {e : CmdError}
      (taken : s.inbox = .command w ws :: rest) (decoded : decode s.params w = .error e) :
      StepEffect s (endCmd ws (raiseCmdError e (beginCmd ws rest s)))
  | ran {w : Cmd} {ws : List Host.Cell} {rest : List HostEvent} {i : Instr} {t : State}
      (taken : s.inbox = .command w ws :: rest) (decoded : decode s.params w = .instr i)
      (effect : CmdEffect (beginCmd ws rest s) i t) : StepEffect s (endCmd ws t)

theorem step_stepEffect (s : State) : ∃ t, step s = .next t ∧ StepEffect s t := by
  obtain ⟨-, run⟩ | ⟨rest, taken, run⟩ | ⟨c, rest, -, run⟩ | ⟨w, ws, rest, e, taken, decoded, run⟩ |
    ⟨w, ws, rest, i, taken, decoded, run⟩ := step_cases s
  case inl => exact ⟨_, run, .elsewhere (.refl s) (.refl s)⟩
  case inr.inl => exact ⟨_, run, .reset taken⟩
  case inr.inr.inl => exact ⟨_, run, .elsewhere ⟨rfl, rfl, rfl, rfl⟩ ⟨rfl, rfl⟩⟩
  case inr.inr.inr.inl => exact ⟨_, run, .rejected taken decoded⟩
  case inr.inr.inr.inr =>
    obtain ⟨t, executed, effect⟩ := exec_cmdEffect i (beginCmd ws rest s)
    exact ⟨endCmd ws t, by rw [run, executed]; rfl, .ran taken decoded effect⟩

theorem stepEffect_of_step {s t : State} (run : step s = .next t) : StepEffect s t := by
  obtain ⟨u, run', effect⟩ := step_stepEffect s
  obtain ⟨⟩ := run.symm.trans run'
  exact effect

/-! ## The error state (R35) -/

/-- All that a step can do to ERR and ERRCODE. -/
inductive ErrorChange (s t : State) : Prop
  | kept (same : SameError s t)
  | reset {rest : List HostEvent} (taken : s.inbox = .reset :: rest) (cleared : SameError State.reset t)
  | cleared {w : Cmd} {ws : List Host.Cell} {rest : List HostEvent} (taken : s.inbox = .command w ws :: rest)
      (decoded : decode s.params w = .instr .clrErr) (cleared : SameError State.reset t)
  | raised {w : Cmd} {ws : List Host.Cell} {rest : List HostEvent} {e : CmdError}
      (taken : s.inbox = .command w ws :: rest) (raises : Raises s w e) (error : SameError (raiseCmdError e s) t)

theorem StepEffect.errorChange {s t : State} (effect : StepEffect s t) : ErrorChange s t := by
  cases effect with
  | elsewhere _ error => exact .kept error
  | reset taken => exact .reset taken ⟨rfl, rfl⟩
  | rejected taken decoded => exact .raised taken (.inl decoded) ⟨rfl, rfl⟩
  | ran taken decoded effect =>
    cases effect with
    | elsewhere _ error => exact .kept ⟨error.err, error.errCode⟩
    | cleared => exact .cleared taken decoded ⟨rfl, rfl⟩
    | raised own => exact .raised taken (own.of_beginCmd.raises decoded) ⟨rfl, rfl⟩
    | cursorMade => exact .kept ⟨rfl, rfl⟩
    | fieldRead _ => exact .kept ⟨rfl, rfl⟩

theorem errCodeOf_ne_zero (e : CmdError) : errCodeOf e ≠ 0#4 := by cases e <;> decide

theorem errCodeOf_le (e : CmdError) : (errCodeOf e).toNat ≤ 4 := by cases e <;> decide

theorem SameError.errorOk {s t : State} (same : SameError s t) (ok : s.ErrorOk) : t.ErrorOk := by
  rwa [State.ErrorOk, same.err, same.errCode]

theorem reset_errorOk : State.reset.ErrorOk := by decide

/-- The code that raising leaves is the first one, which `ErrorOk` says is a code, or the new one. -/
theorem raiseCmdError_errorOk (e : CmdError) {s : State} (ok : s.ErrorOk) : (raiseCmdError e s).ErrorOk := by
  obtain ⟨zero_iff, le⟩ := ok
  cases h : s.err with
  | false => simp [State.ErrorOk, h, errCodeOf_ne_zero, errCodeOf_le]
  | true =>
    have nonzero : s.errCode ≠ 0#4 := by simpa [h] using zero_iff
    simp [State.ErrorOk, h, nonzero, le]

theorem ErrorChange.keeps_errorOk {s t : State} (change : ErrorChange s t) (ok : s.ErrorOk) : t.ErrorOk := by
  cases change with
  | kept same => exact same.errorOk ok
  | reset _ cleared => exact cleared.errorOk reset_errorOk
  | cleared _ _ cleared => exact cleared.errorOk reset_errorOk
  | raised _ _ error => exact error.errorOk (raiseCmdError_errorOk _ ok)

/-- From `ERR = 1` only a reset and CLR_ERR change the error state. -/
theorem ErrorChange.sticky {s t : State} (change : ErrorChange s t) (set : s.err = true) :
    (t.err = true ∧ t.errCode = s.errCode) ∨
    (∃ rest, s.inbox = .reset :: rest ∧ t.err = false ∧ t.errCode = 0#4) ∨
    (∃ w ws rest, s.inbox = .command w ws :: rest ∧ decode s.params w = .instr .clrErr ∧
      t.err = false ∧ t.errCode = 0#4) := by
  cases change with
  | kept same => exact .inl ⟨same.err.trans set, same.errCode⟩
  | reset taken cleared => exact .inr (.inl ⟨_, taken, cleared.err, cleared.errCode⟩)
  | cleared taken decoded cleared => exact .inr (.inr ⟨_, _, _, taken, decoded, cleared.err, cleared.errCode⟩)
  | raised _ _ error => exact .inl ⟨error.err, by simp [error.errCode, set]⟩

/-- ERR rises only with the code of an error that the step's word raises. -/
theorem ErrorChange.rises {s t : State} (change : ErrorChange s t) (clear : s.err = false) (set : t.err = true) :
    ∃ w ws rest e, s.inbox = .command w ws :: rest ∧ Raises s w e ∧ t.errCode = errCodeOf e := by
  cases change with
  | kept same => simp [same.err, clear] at set
  | reset _ cleared => cases cleared.err.symm.trans set
  | cleared _ _ cleared => cases cleared.err.symm.trans set
  | raised taken raises error => exact ⟨_, _, _, _, taken, raises, by simp [error.errCode, clear]⟩

/-- Settles O26, from what a step can do to the error state. -/
theorem errorStateIsSticky : Obligations.ErrorStateIsSticky := by
  refine ⟨⟨rfl, rfl⟩, fun s => ?_⟩
  obtain ⟨t, run, effect⟩ := step_stepEffect s
  have change := effect.errorChange
  exact ⟨t, run, change.sticky, change.rises, change.keeps_errorOk⟩

/-! ## The cursor (R25 to R29) -/

/-- All that a step can do to the cursor's length, position and validity. -/
inductive CursorChange (s t : State) : Prop
  | kept (same : SameCursor s t)
  | reset {rest : List HostEvent} (taken : s.inbox = .reset :: rest) (cleared : SameCursor State.reset t)
  | made {w : Cmd} {ws : List Host.Cell} {rest : List HostEvent} (taken : s.inbox = .command w ws :: rest)
      (decoded : decode s.params w = .instr .curInit) (curByte : t.curByte = 0#32) (curBit : t.curBit = 0#3)
      (curValid : t.curValid = true)
  | moved {u : State} {n : BitVec 6} (before : SameCursor s u) (reads : Reads n)
      (after : SameCursor (fieldReadState n u) t)

theorem StepEffect.cursorChange {s t : State} (effect : StepEffect s t) : CursorChange s t := by
  cases effect with
  | elsewhere cursor _ => exact .kept cursor
  | reset taken => exact .reset taken ⟨rfl, rfl, rfl, rfl⟩
  | rejected _ _ => exact .kept ⟨rfl, rfl, rfl, rfl⟩
  | @ran w ws rest i t taken decoded effect =>
    cases effect with
    | elsewhere cursor _ => exact .kept ⟨cursor.curLen, cursor.curByte, cursor.curBit, cursor.curValid⟩
    | cleared => exact .kept ⟨rfl, rfl, rfl, rfl⟩
    | raised _ => exact .kept ⟨rfl, rfl, rfl, rfl⟩
    | cursorMade => exact .made taken decoded rfl rfl rfl
    | fieldRead reads => exact .moved (u := beginCmd ws rest s) ⟨rfl, rfl, rfl, rfl⟩ reads ⟨rfl, rfl, rfl, rfl⟩

theorem SameCursor.cursorOk {s t : State} (same : SameCursor s t) (ok : s.CursorOk) : t.CursorOk := by
  rwa [State.CursorOk, same.curLen, same.curByte, same.curBit]

theorem reset_cursorOk : State.reset.CursorOk := by decide

/-- The cursor stands at no bit past the end of its buffer. -/
theorem State.CursorOk.curPos_le {s : State} (ok : s.CursorOk) : curPos s ≤ curBits s := by
  obtain ⟨le, atEnd⟩ := ok
  have bitLt := s.curBit.isLt
  unfold curPos curBits
  by_cases last : s.curByte = s.curLen
  · simp [atEnd last, last]
  · have : s.curByte.toNat ≠ s.curLen.toNat := fun e => last (BitVec.eq_of_toNat_eq e)
    omega

/-- A field read ends at a bit position `Q` inside the buffer, so its byte position fits its register and is the
buffer's length only where no bit of the last byte is left over (R113, R116). -/
theorem fieldReadState_cursorOk {n : BitVec 6} {s : State} (reads : Reads n) (ok : s.CursorOk) :
    (fieldReadState n s).CursorOk := by
  have field := readField_spec (memRead s s.curBase) s.curLen.toNat n.toNat s.curByte.toNat s.curBit.toNat (curPos s) _
    reads.2 s.curBit.isLt rfl ok.curPos_le rfl
  obtain ⟨Q, hQ⟩ : ∃ Q, Q = curPos s + min n.toNat (8 * s.curLen.toNat - curPos s) := ⟨_, rfl⟩
  have inside : Q ≤ 8 * s.curLen.toNat := by
    have := ok.curPos_le
    unfold curBits at this
    omega
  have byteAt : (fieldReadState n s).curByte.toNat = Q / 8 := by
    have fits : Q / 8 < 2 ^ 32 := by have := s.curLen.isLt; omega
    rw [fieldReadState, writeField_curByte, field.byteAt, ← hQ, BitVec.toNat_ofNat, Nat.mod_eq_of_lt fits]
  have bitAt : (fieldReadState n s).curBit = BitVec.ofNat 3 (Q % 8) := by
    rw [fieldReadState, writeField_curBit, field.bitAt, hQ]
  have lenAt : (fieldReadState n s).curLen = s.curLen := rfl
  refine ⟨by rw [byteAt, lenAt]; omega, fun last => ?_⟩
  have full : Q / 8 = s.curLen.toNat := by rw [← byteAt, last, lenAt]
  have aligned : Q % 8 = 0 := by omega
  rw [bitAt, aligned]

theorem CursorChange.keeps_cursorOk {s t : State} (change : CursorChange s t) (ok : s.CursorOk) : t.CursorOk := by
  cases change with
  | kept same => exact same.cursorOk ok
  | reset _ cleared => exact cleared.cursorOk reset_cursorOk
  | made _ _ curByte curBit _ => exact ⟨by simp [curByte], fun _ => curBit⟩
  | moved before reads after => exact after.cursorOk (fieldReadState_cursorOk reads (before.cursorOk ok))

theorem Reachable.cursorOk {s : State} (reachable : Reachable s) : s.CursorOk := by
  induction reachable with
  | reset p m events => exact SameCursor.cursorOk ⟨rfl, rfl, rfl, rfl⟩ reset_cursorOk
  | step s t _ run ok => exact (stepEffect_of_step run).cursorChange.keeps_cursorOk ok

/-- Settles O50: `CursorOk` holds at reset and every step keeps it; the bound of CUR_BIT is its width. -/
theorem cursorInvariantsReachable : Obligations.CursorInvariantsReachable :=
  fun s reachable => ⟨Nat.le_of_lt_succ s.curBit.isLt, reachable.cursorOk⟩

/-- CUR_VALID rises only by a CUR_INIT. -/
theorem CursorChange.curValid_rises {s t : State} (change : CursorChange s t) (clear : s.curValid = false)
    (set : t.curValid = true) :
    ∃ w ws rest, s.inbox = .command w ws :: rest ∧ decode s.params w = .instr .curInit := by
  cases change with
  | kept same => simp [same.curValid, clear] at set
  | reset _ cleared => cases cleared.curValid.symm.trans set
  | made taken decoded => exact ⟨_, _, _, taken, decoded⟩
  | moved before _ after => simp [after.curValid, fieldReadState, before.curValid, clear] at set

/-- CUR_VALID falls only by a reset. -/
theorem CursorChange.curValid_falls {s t : State} (change : CursorChange s t) (set : s.curValid = true)
    (clear : t.curValid = false) : ∃ rest, s.inbox = .reset :: rest := by
  cases change with
  | kept same => simp [same.curValid, set] at clear
  | reset taken _ => exact ⟨_, taken⟩
  | made _ _ _ _ curValid => cases curValid.symm.trans clear
  | moved before _ after => simp [after.curValid, fieldReadState, before.curValid, set] at clear

theorem exec_curInit_of_buffer {s : State} (buffer : s.bufNull = false) :
    exec .curInit s = .next { s with
      curBase := s.bufBase, curLen := s.bufLen, curByte := 0#32, curBit := 0#3, curValid := true } := by
  obtain ⟨absent, -⟩ | ⟨-, run⟩ := execCurInit_cases s
  · cases absent.symm.trans buffer
  · exact run

theorem exec_curRead_of_noCursor {s : State} (n : BitVec 6) (noCursor : s.curValid = false) :
    exec (.curRead n) s = .next (raiseCmdError .noCur s) := by
  obtain ⟨-, run⟩ | ⟨valid, -⟩ | ⟨valid, -⟩ := execCurRead_cases n s
  · exact run
  · cases valid.symm.trans noCursor
  · cases valid.symm.trans noCursor

theorem exec_curFoff_of_noCursor {s : State} (noCursor : s.curValid = false) :
    exec .curFoff s = .next (raiseCmdError .noCur s) := by
  obtain ⟨-, run⟩ | ⟨valid, -⟩ := execCurFoff_cases s
  · exact run
  · cases valid.symm.trans noCursor

/-- Settles O51, from what a step can do to the cursor. -/
theorem cursorValidity : Obligations.CursorValidity := by
  refine ⟨rfl, fun s buffer => ⟨_, exec_curInit_of_buffer buffer, rfl⟩, ?_, fun s => ?_⟩
  · intro s n noCursor i hi
    obtain rfl | rfl : i = .curRead n ∨ i = .curFoff := by simpa using hi
    case inl => exact ⟨_, exec_curRead_of_noCursor n noCursor, rfl⟩
    case inr => exact ⟨_, exec_curFoff_of_noCursor noCursor, rfl⟩
  · obtain ⟨t, run, effect⟩ := step_stepEffect s
    have change := effect.cursorChange
    exact ⟨t, run, change.curValid_rises, change.curValid_falls⟩

/-! ## The reset state (R42) -/

/-- Settles O15: the state after reset is the table of R42, so each of its eighteen rows holds by definition. -/
theorem resetValues : Obligations.ResetValues := by
  unfold Obligations.ResetValues
  decide

end Sys2Proof.Machine
end

section
/-! Memory as the commands see it (20_memory.md): where a buffer's byte is (R52), which commands reach memory (R51),
and the big-endian value that a read of whole bytes gives (R58). -/

namespace Sys2Proof.Machine

/-! ## The byte at an index (R52) -/

/-- A byte that the host does not write during the command reads as memory holds it. -/
theorem memRead_of_not_racing {s : State} {base : Word} {i : Nat}
    (quiet : byteAddr s.params base i ∉ s.racing) :
    memRead s base i = s.mem.read (byteAddr s.params base i) := if_neg quiet

theorem byteAddr_top {p : Params} {base : Word} {i : Nat} (top : base.toNat + i = 2 ^ p.addrW) :
    byteAddr p base i = 0 := by
  rw [byteAddr, portAddr, top, Nat.mod_self]

/-- Settles O17: a byte that is not raced is memory's at its address, and the address past the top is 0. -/
theorem bufferAddressWraps : Obligations.BufferAddressWraps := by
  refine ⟨fun s base i quiet => memRead_of_not_racing quiet, fun s base i top quiet => ?_⟩
  rw [← byteAddr_top top] at quiet ⊢
  exact memRead_of_not_racing quiet

/-! ## The commands that reach memory (R51) -/

/-- The command adds no request to the port's record, and its effect is the same over every memory. -/
def LeavesMemoryAlone (i : Instr) (s : State) : Prop :=
  ∀ m : Memory, ∃ t, exec i s = .next t ∧ t.portLog = s.portLog ∧
    exec i { s with mem := m } = .next { t with mem := m }

theorem exec_curInit_of_noBuffer {s : State} (noBuffer : s.bufNull = true) :
    exec .curInit s = .next (raiseCmdError .noBuf s) := by
  obtain ⟨-, run⟩ | ⟨present, -⟩ := execCurInit_cases s
  · exact run
  · cases present.symm.trans noBuffer

theorem exec_curFoff_of_cursor {s : State} (valid : s.curValid = true) :
    exec .curFoff s = .next { s with res := BitVec.ofNat 32 (fullOffset s.curByte.toNat s.curBit.toNat) } := by
  obtain ⟨noCursor, -⟩ | ⟨-, run⟩ := execCurFoff_cases s
  · cases noCursor.symm.trans valid
  · exact run

/-- CUR_INIT checks BUF_NULL only, and copies registers. -/
theorem curInit_leavesMemoryAlone (s : State) : LeavesMemoryAlone .curInit s := by
  intro m
  obtain ⟨noBuffer, run⟩ | ⟨buffer, run⟩ := execCurInit_cases s
  · exact ⟨_, run, rfl, exec_curInit_of_noBuffer (s := { s with mem := m }) noBuffer⟩
  · exact ⟨_, run, rfl, exec_curInit_of_buffer (s := { s with mem := m }) buffer⟩

/-- CUR_FOFF checks CUR_VALID only, and counts from the cursor's position. -/
theorem curFoff_leavesMemoryAlone (s : State) : LeavesMemoryAlone .curFoff s := by
  intro m
  obtain ⟨noCursor, run⟩ | ⟨valid, run⟩ := execCurFoff_cases s
  · exact ⟨_, run, rfl, exec_curFoff_of_noCursor (s := { s with mem := m }) noCursor⟩
  · exact ⟨_, run, rfl, exec_curFoff_of_cursor (s := { s with mem := m }) valid⟩

/-- Settles O20, command by command: five write registers from registers and operands alone, and CUR_INIT and
CUR_FOFF check one status bit first. -/
theorem onlyTwoCommandsReachMemory : Obligations.OnlyTwoCommandsReachMemory := by
  intro i s m notRead notHdr
  cases i with
  | clrErr => exact ⟨_, rfl, rfl, rfl⟩
  | sizeDec w h => exact ⟨_, rfl, rfl, rfl⟩
  | sizeEnc w h => exact ⟨_, rfl, rfl, rfl⟩
  | bufBase base null => exact ⟨_, rfl, rfl, rfl⟩
  | bufLen len => exact ⟨_, rfl, rfl, rfl⟩
  | curInit => exact curInit_leavesMemoryAlone s m
  | curRead n => exact absurd rfl (notRead n)
  | curFoff => exact curFoff_leavesMemoryAlone s m
  | hdrDec noOut => exact absurd rfl (notHdr noOut)

/-! ## Whole bytes from a byte boundary (R58) -/

theorem bytesBigEndian_zero (s : State) (i : Nat) : bytesBigEndian s i 0 = 0 := rfl

theorem bytesBigEndian_succ (s : State) (i k : Nat) :
    bytesBigEndian s i (k + 1) = bytesBigEndian s i k * 256 + (memRead s s.curBase (i + k)).toNat := by
  simp only [bytesBigEndian, List.range_succ, List.foldl_append, List.foldl_cons, List.foldl_nil]

theorem bytesBigEndian_lt (s : State) (i k : Nat) : bytesBigEndian s i k < 256 ^ k := by
  induction k with
  | zero => exact Nat.one_pos
  | succ k ih =>
    have byteLt := (memRead s s.curBase (i + k)).isLt
    rw [bytesBigEndian_succ, Nat.pow_succ]
    omega

/-- A turn of the loop of R113 that takes a whole byte appends it below the running result. -/
theorem chunkStep_acc_of_wholeByte (fetch : Nat → Byte) {c : Scan} {v : Nat} (aligned : c.bit = 0)
    (wanted : 8 ≤ c.n) (soFar : c.acc = BitVec.ofNat 32 v) :
    (chunkStep fetch c).acc = BitVec.ofNat 32 (v * 256 + (fetch c.byte).toNat) := by
  apply BitVec.eq_of_getLsbD_eq
  intro j hj
  have whole : min c.n (8 - c.bit) = 8 := by omega
  have sumBit : (v * 256 + (fetch c.byte).toNat).testBit j =
      if j < 8 then (fetch c.byte).toNat.testBit j else v.testBit (j - 8) := by
    rw [Nat.mul_comm]
    exact Nat.testBit_two_pow_mul_add v (fetch c.byte).isLt j
  rw [chunkStep_bit fetch c j hj, whole, BitVec.getLsbD_ofNat, sumBit]
  have shifted : j - 8 < 32 := by omega
  simp only [aligned, soFar, BitVec.getLsbD_ofNat, hj, shifted, BitVec.testBit_toNat, Nat.zero_add, decide_true,
    Bool.true_and]

/-- The loop of R113 at a byte boundary: `j` bytes from index `i` on are in the result, `m` more are wanted. -/
structure BytesTaken (s : State) (i j m : Nat) (c : Scan) : Prop where
  wanted : c.n = 8 * m
  byteAt : c.byte = i + j
  aligned : c.bit = 0
  soFar : c.acc = BitVec.ofNat 32 (bytesBigEndian s i j)

theorem BytesTaken.afterTurn {s : State} {i j m : Nat} {c : Scan} (taken : BytesTaken s i j (m + 1) c) :
    BytesTaken s i (j + 1) m (chunkStep (memRead s s.curBase) c) := by
  obtain ⟨wanted, byteAt, aligned, soFar⟩ := taken
  obtain ⟨position, bitLt⟩ := chunkStep_pos (memRead s s.curBase) c (by omega)
  have left : (chunkStep (memRead s s.curBase) c).n = c.n - min c.n (8 - c.bit) := rfl
  refine ⟨by omega, by omega, by omega, ?_⟩
  rw [chunkStep_acc_of_wholeByte _ aligned (by omega) soFar, byteAt, bytesBigEndian_succ]

/-- Every byte still wanted lies in the buffer, so the loop takes them all. -/
theorem BytesTaken.scanLoop_acc {s : State} {i j m len fuel : Nat} {c : Scan} (taken : BytesTaken s i j m c)
    (fuelEnough : 8 * m ≤ fuel) (inside : i + j + m ≤ len) :
    (scanLoop (memRead s s.curBase) len fuel c).acc = BitVec.ofNat 32 (bytesBigEndian s i (j + m)) := by
  induction m generalizing j fuel c with
  | zero => rw [scanLoop_stopped _ _ _ _ (by have := taken.wanted; omega), taken.soFar, Nat.add_zero]
  | succ m ih =>
    obtain ⟨fuel, rfl⟩ : ∃ f, fuel = f + 1 := ⟨fuel - 1, by omega⟩
    have goesOn : 0 < c.n ∧ c.byte < len := by
      have := taken.wanted
      have := taken.byteAt
      omega
    rw [scanLoop, if_pos goesOn, ih taken.afterTurn (by omega) (by omega), Nat.add_right_comm, Nat.add_assoc]

theorem exec_curRead_of_reads {s : State} {n : BitVec 6} (valid : s.curValid = true) (reads : Reads n) :
    exec (.curRead n) s = .next (fieldReadState n s) := by
  obtain ⟨noCursor, -⟩ | ⟨-, degenerate, -⟩ | ⟨-, -, run⟩ := execCurRead_cases n s
  · cases noCursor.symm.trans valid
  · exact absurd reads degenerate
  · exact run

/-- At most four bytes fit the result register, so none of them is lost. -/
theorem fieldReadState_res_of_wholeBytes {s : State} {n : BitVec 6} {k : Nat} (boundary : s.curBit = 0#3)
    (atMostFour : k ≤ 4) (count : n.toNat = 8 * k) (inside : s.curByte.toNat + k ≤ s.curLen.toNat) :
    (fieldReadState n s).res.toNat = bytesBigEndian s s.curByte.toNat k := by
  have start : BytesTaken s s.curByte.toNat 0 k
      { n := n.toNat, byte := s.curByte.toNat, bit := s.curBit.toNat, acc := 0#32, reads := [] } :=
    ⟨count, rfl, by simp [boundary], rfl⟩
  have fits : bytesBigEndian s s.curByte.toNat k < 2 ^ 32 :=
    calc bytesBigEndian s s.curByte.toNat k < 256 ^ k := bytesBigEndian_lt ..
      _ ≤ 256 ^ 4 := Nat.pow_le_pow_right (by decide) atMostFour
  rw [fieldReadState, writeField_res, readField, start.scanLoop_acc count.ge inside, Nat.zero_add, BitVec.toNat_ofNat,
    Nat.mod_eq_of_lt fits]

theorem exec_curRead_wholeBytes {s : State} {n : BitVec 6} {k : Nat} (valid : s.curValid = true)
    (boundary : s.curBit = 0#3) (atLeastOne : 1 ≤ k) (atMostFour : k ≤ 4) (count : n.toNat = 8 * k)
    (inside : s.curByte.toNat + k ≤ s.curLen.toNat) :
    ∃ t, exec (.curRead n) s = .next t ∧ t.res.toNat = bytesBigEndian s s.curByte.toNat k :=
  ⟨_, exec_curRead_of_reads valid ⟨by omega, by omega⟩,
    fieldReadState_res_of_wholeBytes boundary atMostFour count inside⟩

/-- Settles O38: each turn of the loop appends one whole byte below the earlier ones; R58's example is its two-byte
case. -/
theorem alignedReadIsBigEndian : Obligations.AlignedReadIsBigEndian := by
  refine ⟨fun s n k => exec_curRead_wholeBytes, fun s valid boundary inside first second => ?_⟩
  obtain ⟨t, run, value⟩ := exec_curRead_wholeBytes (n := 16#6) valid boundary (by decide) (by decide) rfl inside
  refine ⟨t, run, BitVec.eq_of_toNat_eq ?_⟩
  rw [value, bytesBigEndian_succ, bytesBigEndian_succ, second, Nat.add_zero, first, bytesBigEndian_zero]
  rfl

end Sys2Proof.Machine
end

section
/-! Command words (30_encoding.md): the rows of R76, what decoding turns away (R78, R79), the worked encodings (R83) and
the expansions of the pseudo-instructions (R82). -/

namespace Sys2Proof.Machine

/-! ## The rows of matches and masks (R76) -/

/-- A word decodes to an operation exactly when it matches the operation's row. -/
theorem decodesTo_iff_matches (p : Params) (w : Cmd) (o : Opcode) :
    DecodesTo p w o ↔ w &&& maskOf p o = matchOf o := by
  constructor
  · rintro ⟨i, decoded, operation⟩
    obtain ⟨o', row, rfl, -⟩ := decode_instr decoded
    rw [opcodeOfInstr_operandsOf] at operation
    rwa [operation] at row
  · intro row
    exact ⟨operandsOf w o, decode_of_matches row, opcodeOfInstr_operandsOf w o⟩

/-- The table of R76 stands at widths of 32; narrower parameters add their own reserved bits of `IMM`. -/
theorem decodesTo_iff_std (p : Params) (w : Cmd) (o : Opcode) :
    DecodesTo p w o ↔ w &&& maskOf Params.std o = matchOf o ∧ cmdImm w &&& immReserved p o = 0#32 := by
  have stdImm : cmdImm w &&& immReserved p o = 0#32 → cmdImm w &&& immReserved Params.std o = 0#32 := by
    cases o with
    | bufBase | bufLen => exact fun _ => BitVec.and_zero
    | _ => exact id
  rw [decodesTo_iff_matches, matches_iff, matches_iff]
  tauto

/-- BUF_BASE has no bit of `IMM` from `ADDR_W` on. -/
theorem decodesTo_bufBase_iff (p : Params) (w : Cmd) :
    DecodesTo p w .bufBase ↔
      w &&& maskOf Params.std .bufBase = matchOf .bufBase ∧ ∀ j, 32 + p.addrW ≤ j → w.getLsbD j = false := by
  rw [decodesTo_iff_std, immReserved, and_high_eq_zero_iff, cmdImm_lt_iff]

/-- BUF_LEN has no bit of `IMM` from `SIZE_W` on. -/
theorem decodesTo_bufLen_iff (p : Params) (w : Cmd) :
    DecodesTo p w .bufLen ↔
      w &&& maskOf Params.std .bufLen = matchOf .bufLen ∧ ∀ j, 32 + p.sizeW ≤ j → w.getLsbD j = false := by
  rw [decodesTo_iff_std, immReserved, and_high_eq_zero_iff, cmdImm_lt_iff]

/-- Every other row is that of the table. -/
theorem decodesTo_iff_std_of_fixed {p : Params} {o : Opcode} (w : Cmd)
    (fixed : immReserved p o = immReserved Params.std o) :
    DecodesTo p w o ↔ w &&& maskOf Params.std o = matchOf o := by
  rw [decodesTo_iff_matches, maskOf, fixed, ← maskOf]

/-- Settles O3: the table's masks and matches evaluate to the words of R76; BUF_BASE and BUF_LEN have the bits that
the parameters reserve besides. -/
theorem opcodeMatchAndMask : Obligations.OpcodeMatchAndMask := fun p w =>
  ⟨decodesTo_iff_std_of_fixed (o := .clrErr) w rfl, decodesTo_iff_std_of_fixed (o := .sizeDec) w rfl,
    decodesTo_iff_std_of_fixed (o := .sizeEnc) w rfl, decodesTo_bufBase_iff p w, decodesTo_bufLen_iff p w,
    decodesTo_iff_std_of_fixed (o := .curInit) w rfl, decodesTo_iff_std_of_fixed (o := .curRead) w rfl,
    decodesTo_iff_std_of_fixed (o := .curFoff) w rfl, decodesTo_iff_std_of_fixed (o := .hdrDec) w rfl⟩

/-! ## Words that decoding turns away (R78, R79) -/

theorem mem_assignedOpcs_iff (b : Byte) : b ∈ assignedOpcs ↔ ∃ o, b = opcByte o := by
  constructor
  · intro assigned
    have found : ∀ b ∈ assignedOpcs, (opcodeOf b).isSome := by decide
    obtain ⟨o, operation⟩ := Option.isSome_iff_exists.mp (found b assigned)
    exact ⟨o, opcodeOf_eq_some operation⟩
  · rintro ⟨o, rfl⟩
    cases o <;> decide

theorem opcodeOf_eq_none_iff (b : Byte) : opcodeOf b = none ↔ b ∉ assignedOpcs := by
  rw [mem_assignedOpcs_iff]
  constructor
  · rintro unassigned ⟨o, rfl⟩
    cases (opcodeOf_opcByte o).symm.trans unassigned
  · intro unassigned
    exact Option.eq_none_iff_forall_ne_some.mpr fun o operation => unassigned ⟨o, opcodeOf_eq_some operation⟩

theorem decode_eq_illegal_iff (p : Params) (w : Cmd) : decode p w = .error .illegal ↔ cmdOpc w ∉ assignedOpcs := by
  rw [← opcodeOf_eq_none_iff]
  obtain ⟨unassigned, answer⟩ | ⟨o, operation, -, answer⟩ | ⟨o, operation, -, answer⟩ := decode_cases p w
  · simp [unassigned, answer]
  · simp [operation, answer]
  · simp [operation, answer]

/-- Once its operation is known, a word raises E_RSV exactly when it does not match the operation's row. -/
theorem decode_eq_rsv_iff {p : Params} {w : Cmd} {o : Opcode} (operation : cmdOpc w = opcByte o) :
    decode p w = .error .rsv ↔ w &&& maskOf p o ≠ matchOf o := by
  by_cases row : w &&& maskOf p o = matchOf o
  · simp [decode_of_matches row, row]
  · simp [decode, operation, row]

/-- A word that decoding turns away raises its command error and does nothing else (R152). -/
theorem step_of_decode_error {s : State} {w : Cmd} {ws : List Host.Cell} {rest : List HostEvent} {e : CmdError}
    (taken : s.inbox = .command w ws :: rest) (rejected : decode s.params w = .error e) :
    step s = .next (erredCmd ws rest (errCodeOf e) s) := by
  simp only [step, taken, runCmd, beginCmd_params, rejected, endOutcome]
  rfl

/-- Nine of the 256 values are assigned (R75). -/
theorem length_unassignedOpcs :
    ((List.range 256).filter (fun n => !assignedOpcs.contains (BitVec.ofNat 8 n))).length = 247 := by
  decide +kernel

/-- Settles O4: the decoder answers E_ILLEGAL where its map of operations has none, and an erred word only raises. -/
theorem unassignedOpcodeIsIllegal : Obligations.UnassignedOpcodeIsIllegal :=
  ⟨decode_eq_illegal_iff, by decide, length_unassignedOpcs, fun s w _ _ taken unassigned =>
    step_of_decode_error taken ((decode_eq_illegal_iff s.params w).mpr unassigned)⟩

/-! ### Reserved bits, field by field (R72, R79) -/

/-- Where `SUB[0]` is an operand, the seven bits above it are reserved. -/
theorem cmdSub_above_flag (w : Cmd) : cmdSub w &&& 0xFE#8 = 0#8 ↔ w.extractLsb' 9 7 = 0#7 := by
  have field : w.extractLsb' 9 7 = (cmdSub w).extractLsb' 1 7 := by ext j hj; simp [cmdSub]; grind
  have byte : ∀ x : Byte, x &&& 0xFE#8 = 0#8 ↔ x.extractLsb' 1 7 = 0#7 := by decide
  rw [field, byte]

/-- Where `SUB[5:0]` is an operand, the two bits above it are reserved. -/
theorem cmdSub_above_count (w : Cmd) : cmdSub w &&& 0xC0#8 = 0#8 ↔ w.extractLsb' 14 2 = 0#2 := by
  have field : w.extractLsb' 14 2 = (cmdSub w).extractLsb' 6 2 := by ext j hj; simp [cmdSub]; grind
  have byte : ∀ x : Byte, x &&& 0xC0#8 = 0#8 ↔ x.extractLsb' 6 2 = 0#2 := by decide
  rw [field, byte]

/-- The list of R79 is the reserved bits of the operation's three fields. -/
theorem reservedBitSet_iff_fields {p : Params} {w : Cmd} {o : Opcode} (operation : cmdOpc w = opcByte o) :
    ReservedBitSet p w ↔
      cmdRsv w ≠ 0#16 ∨ cmdSub w &&& subReserved o ≠ 0#8 ∨ cmdImm w &&& immReserved p o ≠ 0#32 := by
  have opc : w.extractLsb' 0 8 = opcByte o := operation
  have rsv : w.extractLsb' 16 16 = cmdRsv w := rfl
  have sub : w.extractLsb' 8 8 = cmdSub w := rfl
  have imm : w.extractLsb' 32 32 = cmdImm w := rfl
  have wholeSub : cmdSub w &&& 0xFF#8 = cmdSub w := BitVec.and_allOnes
  rw [ReservedBitSet, opc, rsv, sub, imm]
  cases o <;> simp [opcByte, subReserved, immReserved, wholeSub, cmdSub_above_flag, cmdSub_above_count,
    and_high_eq_zero_iff, -BitVec.reduceAllOnes]

/-- A word with an assigned `OPC` fails its operation's row of R76 exactly by a reserved bit. -/
theorem reservedBitSet_iff {p : Params} {w : Cmd} {o : Opcode} (operation : cmdOpc w = opcByte o) :
    ReservedBitSet p w ↔ w &&& maskOf p o ≠ matchOf o := by
  rw [reservedBitSet_iff_fields operation, ne_eq (w &&& _), matches_iff]
  tauto

theorem decode_eq_rsv_iff_reservedBitSet (p : Params) (w : Cmd) :
    decode p w = .error .rsv ↔ w.extractLsb' 0 8 ∈ assignedOpcs ∧ ReservedBitSet p w := by
  by_cases assigned : w.extractLsb' 0 8 ∈ assignedOpcs
  · obtain ⟨o, operation⟩ := (mem_assignedOpcs_iff _).mp assigned
    rw [decode_eq_rsv_iff operation, ← reservedBitSet_iff operation]
    exact (and_iff_right assigned).symm
  · have illegal := (decode_eq_illegal_iff p w).mpr assigned
    simp [illegal, assigned]

/-- Settles O5: the decoder answers E_RSV where a word fails its operation's row, which are the reserved bits of R79
field by field; and an erred word only raises. -/
theorem reservedBitRaisesRsv : Obligations.ReservedBitRaisesRsv :=
  ⟨decode_eq_rsv_iff_reservedBitSet, fun s w _ _ taken assigned reserved =>
    step_of_decode_error taken ((decode_eq_rsv_iff_reservedBitSet s.params w).mpr ⟨assigned, reserved⟩)⟩

/-! ## The assembler (R82, R83) -/

/-- Settles O7: seven fixed texts and words, evaluated. -/
theorem workedEncodings : Obligations.WorkedEncodings := by
  refine ⟨⟨?_, ?_⟩, ⟨?_, ?_⟩, ⟨?_, ?_⟩, ⟨?_, ?_⟩, ⟨?_, ?_⟩, ⟨?_, ?_⟩, ⟨?_, ?_⟩⟩ <;> decide

theorem assemble_bufSet (p : Params) (base len : Nat) :
    assemble p (.bufSet base len) =
      (assemble p (.bufBase base)).bind fun x => (assemble p (.bufLen len)).bind fun y => some (x ++ y) := by
  simp only [assemble, Option.bind_eq_bind, Option.bind_assoc, Option.bind_some, List.cons_append, List.nil_append]

/-- What follows `buf.set` takes its two words. -/
theorem assemble_bufSet_bind (p : Params) (base len : Nat) (f : List Cmd → Option (List Cmd)) :
    (assemble p (.bufSet base len)).bind f =
      (asmBufBase p base false).bind fun a => (asmBufLen p len).bind fun c => f [a, c] := by
  simp only [assemble, Option.bind_eq_bind, Option.bind_assoc, Option.bind_some]

/-- Settles O10: `cur.open` and `hdr.parse` append their last word to the two of `buf.set`. -/
theorem pseudoExpansions : Obligations.PseudoExpansions := by
  intro p b n
  refine ⟨rfl, assemble_bufSet p b n, ?curOpen, ?hdrParse, rfl⟩
  case curOpen => rw [assemble_bufSet_bind]; rfl
  case hdrParse => rw [assemble_bufSet_bind]; rfl

end Sys2Proof.Machine
end

section
/-! The size commands (40_size.md): the next state that each writes (R101, R102), the words that decode to it, and the
five laws of the family (R105). -/

namespace Sys2Proof.Machine

/-! ## A size result (R100) -/

/-- The check of R100 with `SIZE_MAX` written out (R8). -/
theorem sizeMax_lt_iff (p : Params) (v : Nat) : 2 ^ p.sizeW - 1 < v ↔ sizeOverflows p v = true :=
  decide_eq_true_iff.symm

/-- A size above one that overflows overflows too. -/
theorem sizeOverflows_of_le {p : Params} {v v' : Nat} (le : v ≤ v') (overflows : sizeOverflows p v = true) :
    sizeOverflows p v' = true := by
  rw [sizeOverflows_iff] at overflows ⊢
  exact overflows.trans le

theorem writeSize_of_overflows {s : State} {v : Nat} (overflows : sizeOverflows s.params v = true) :
    writeSize (sizeOverflows s.params v) v s = { s with szOvf := true, szVal := 0#32 } := by
  rw [overflows]
  rfl

/-- A size result is the sentinel above `SIZE_MAX`, and the size itself up to it. -/
theorem writeSize_eq_ite (s : State) (v : Nat) :
    writeSize (sizeOverflows s.params v) v s =
      if 2 ^ s.params.sizeW - 1 < v then { s with szOvf := true, szVal := 0#32 }
      else { s with szOvf := false, szVal := BitVec.ofNat 32 v } := by
  simp only [sizeMax_lt_iff]
  split
  case isTrue overflows => exact writeSize_of_overflows overflows
  case isFalse fits =>
    exact writeSize_of_fits ((sizeOverflows_eq_false_iff _ _).mp (Bool.eq_false_iff.mpr fits))

/-- A size that fits the size type and a 32-bit register is read back exactly. -/
theorem writeSize_szVal_toNat {s : State} {v : Nat} (word : v < 2 ^ 32) (fits : sizeOverflows s.params v = false) :
    (writeSize (sizeOverflows s.params v) v s).szVal.toNat = v := by
  rw [writeSize_of_fits ((sizeOverflows_eq_false_iff _ _).mp fits)]
  exact Nat.mod_eq_of_lt word

/-! ## The words of the size commands (R72, R76) -/

theorem append_eq_append_iff {m n : Nat} (a a' : BitVec m) (b b' : BitVec n) :
    a ++ b = a' ++ b' ↔ a = a' ∧ b = b' := by
  constructor
  · intro same
    have high := congrArg (BitVec.extractLsb' n m) same
    have low := congrArg (BitVec.extractLsb' 0 n) same
    simp only [BitVec.extractLsb'_append_eq_left, BitVec.extractLsb'_append_eq_right] at high low
    exact ⟨high, low⟩
  · rintro ⟨rfl, rfl⟩
    rfl

/-- The low half of a word gives its three lower fields, and they give it (R70). -/
theorem cmd_low_eq_iff (w : Cmd) (r : BitVec 16) (s o : Byte) :
    w.extractLsb' 0 32 = r ++ s ++ o ↔ cmdRsv w = r ∧ cmdSub w = s ∧ cmdOpc w = o := by
  rw [cmd_low, append_eq_append_iff, append_eq_append_iff, and_assoc]

/-- A word has the operands of an operation exactly when it matches the operation's row. -/
theorem decode_eq_operandsOf_iff (p : Params) (w : Cmd) (o : Opcode) :
    decode p w = .instr (operandsOf w o) ↔ w &&& maskOf p o = matchOf o :=
  ⟨fun decoded => (decodesTo_iff_matches p w o).mp ⟨_, decoded, opcodeOfInstr_operandsOf w o⟩, decode_of_matches⟩

/-- An operation that reserves all of `SUB` and nothing of `IMM` has its row in the low half of the word. -/
theorem matches_iff_low {p : Params} {o : Opcode} (w : Cmd) (allSub : subReserved o = 0xFF#8)
    (freeImm : immReserved p o = 0#32) :
    w &&& maskOf p o = matchOf o ↔ w.extractLsb' 0 32 = 0#16 ++ 0#8 ++ opcByte o := by
  have sub : cmdSub w &&& 0xFF#8 = cmdSub w := BitVec.and_allOnes
  rw [matches_iff, cmd_low_eq_iff, allSub, freeImm, sub, BitVec.and_zero]
  tauto

/-- A field of `IMM` in the word itself: `IMM` stands from bit 32 on (R70). -/
theorem cmdImm_extractLsb' (w : Cmd) {start len : Nat} (within : start + len ≤ 32) :
    (cmdImm w).extractLsb' start len = w.extractLsb' (32 + start) len := by
  ext j hj
  have inImm : start + j < 32 := by omega
  simp [cmdImm, inImm, Nat.add_assoc]

theorem operandsOf_sizeDec (w : Cmd) :
    operandsOf w .sizeDec = .sizeDec (w.extractLsb' 48 16) (w.extractLsb' 32 16) := by
  rw [operandsOf, cmdImm_extractLsb' w (by decide), cmdImm_extractLsb' w (by decide)]

theorem operandsOf_sizeEnc (w : Cmd) :
    operandsOf w .sizeEnc = .sizeEnc (w.extractLsb' 48 16) (w.extractLsb' 32 16) := by
  rw [operandsOf, cmdImm_extractLsb' w (by decide), cmdImm_extractLsb' w (by decide)]

/-! ## What SIZE_DEC and SIZE_ENC write (R101, R102) -/

/-- Settles O28: the result by the one check against `SIZE_MAX`, the words by the row of the operation. -/
theorem sizeDecResult : Obligations.SizeDecResult := by
  refine ⟨fun s w h => ?result, fun p w => ?words⟩
  case result =>
    rw [exec_sizeDec, writeSize_eq_ite]
    rfl
  case words =>
    rw [← operandsOf_sizeDec, decode_eq_operandsOf_iff, matches_iff_low w rfl rfl]
    rfl

/-- Settles O29: a product above `SIZE_MAX` leaves a sum above it, so that both checks of R102 are the second one. -/
theorem sizeEncResult : Obligations.SizeEncResult := by
  refine ⟨fun s w h => ?result, fun p w => ?words⟩
  case result =>
    have covers : 2 ^ s.params.sizeW - 1 < w.toNat * h.toNat → 2 ^ s.params.sizeW - 1 < w.toNat * h.toNat + 8 :=
      Nat.lt_add_right 8
    rw [exec_sizeEnc, writeSize_eq_ite, ← ite_or, if_congr (or_iff_right_of_imp covers) rfl rfl]
    rfl
  case words =>
    rw [← operandsOf_sizeEnc, decode_eq_operandsOf_iff, matches_iff_low w rfl rfl]
    rfl

/-! ## The five laws (R105) -/

/-- SIZE_ENC overflows on every product closer to `SIZE_MAX` than the header's size. A legal `SIZE_W` makes `SIZE_MAX`
large enough that the subtraction is exact. -/
theorem sizeOverflows_rasterSize_add_hdrSize_iff {p : Params} (legal : p.Legal) (w h : BitVec 16) :
    sizeOverflows p (rasterSize w h + hdrSize) = true ↔ 2 ^ p.sizeW - 1 - hdrSize < rasterSize w h := by
  obtain ⟨wide, -, -, -⟩ := legal
  have room : hdrSize < 2 ^ p.sizeW := Nat.lt_of_lt_of_le (by decide) (Nat.pow_le_pow_right (by decide) wide)
  rw [← sizeMax_lt_iff]
  omega

/-- Where the encoded size fits, the decoded one does, and they differ by the header. -/
theorem encodedSize_eq_decodedSize_add {s : State} {w h : BitVec 16}
    (fits : sizeOverflows s.params (rasterSize w h + hdrSize) = false) :
    sizeOverflows s.params (rasterSize w h) = false ∧
      (writeSize (sizeOverflows s.params (rasterSize w h + hdrSize)) (rasterSize w h + hdrSize) s).szVal.toNat =
        (writeSize (sizeOverflows s.params (rasterSize w h)) (rasterSize w h) s).szVal.toNat + hdrSize := by
  have decFits : sizeOverflows s.params (rasterSize w h) = false := by
    rw [sizeOverflows_eq_false_iff] at fits ⊢
    exact Nat.lt_of_add_right_lt fits
  refine ⟨decFits, ?_⟩
  rw [writeSize_szVal_toNat (encodedSize_fits le_rfl w h) fits,
    writeSize_szVal_toNat (rasterSize_fits le_rfl w h) decFits]

/-- Settles O30: SIZE_DEC is the check on the product and SIZE_ENC the check on the product with the header. -/
theorem sizeLaws : Obligations.SizeLaws := by
  intro s w h legal
  refine ⟨_, _, exec_sizeDec w h s, exec_sizeEnc w h s, ?exact, ?sentinel, ?nonOverflow, ?encThenDec, ?decThenEnc,
    ?widest, ?encOverflow⟩
  case exact => exact writeSize_szVal_toNat (rasterSize_fits le_rfl w h)
  case sentinel =>
    intro above
    have overflows : sizeOverflows s.params (rasterSize w h) = true := (sizeMax_lt_iff _ _).mp above
    rw [writeSize_of_overflows overflows]
    exact ⟨rfl, rfl⟩
  case nonOverflow => exact fun within => decide_eq_false within.not_gt
  case encThenDec => exact encodedSize_eq_decodedSize_add
  case decThenEnc => exact sizeOverflows_of_le (Nat.le_add_right _ _)
  case widest =>
    intro widest
    exact ⟨(sizeOverflows_eq_false_iff _ _).mpr (rasterSize_fits widest.ge w h),
      (sizeOverflows_eq_false_iff _ _).mpr (encodedSize_fits widest.ge w h)⟩
  case encOverflow => exact sizeOverflows_rasterSize_add_hdrSize_iff legal w h

end Sys2Proof.Machine
end

section
/-! The buffer description and the start of a cursor (41_cursor.md R110 to R112): the next states, the words, and what
an absent or empty buffer does. -/

namespace Sys2Proof.Machine

/-! ## The words of one instruction (R72, R76) -/

/-- A word decodes to an instruction exactly when it matches the row of its operation and carries its operands. -/
theorem decode_eq_instr_iff (p : Params) (w : Cmd) (i : Instr) :
    decode p w = .instr i ↔
      w &&& maskOf p (opcodeOfInstr i) = matchOf (opcodeOfInstr i) ∧ i = operandsOf w (opcodeOfInstr i) := by
  constructor
  · intro decoded
    obtain ⟨o, row, rfl, -⟩ := decode_instr decoded
    rw [opcodeOfInstr_operandsOf]
    exact ⟨row, rfl⟩
  · rintro ⟨row, operands⟩
    rw [operands]
    exact decode_of_matches row

/-- An operation that reserves all of `SUB` and of `IMM` has one word. -/
theorem matches_iff_eq {p : Params} {o : Opcode} (w : Cmd) (allSub : subReserved o = 0xFF#8)
    (allImm : immReserved p o = BitVec.allOnes 32) : w &&& maskOf p o = matchOf o ↔ w = matchOf o := by
  have allBits : packCmd (BitVec.allOnes 32) 0xFFFF#16 0xFF#8 0xFF#8 = BitVec.allOnes 64 := by decide
  rw [maskOf, allSub, allImm, allBits, BitVec.and_allOnes]

theorem decode_eq_curInit_iff (p : Params) (w : Cmd) : decode p w = .instr .curInit ↔ w = matchOf .curInit :=
  (decode_eq_operandsOf_iff p w .curInit).trans (matches_iff_eq w rfl rfl)

theorem decode_eq_curFoff_iff (p : Params) (w : Cmd) : decode p w = .instr .curFoff ↔ w = matchOf .curFoff :=
  (decode_eq_operandsOf_iff p w .curFoff).trans (matches_iff_eq w rfl rfl)

/-- `NULL` is the lowest bit of `SUB` (R72). -/
theorem cmdSub_flag (w : Cmd) : (cmdSub w).getLsbD 0 = w.getLsbD 8 := by simp [cmdSub]

theorem decode_eq_bufBase_iff (p : Params) (w : Cmd) (base : Word) (null : Bool) :
    decode p w = .instr (.bufBase base null) ↔
      cmdOpc w = 0x20#8 ∧ w.extractLsb' 9 7 = 0#7 ∧ cmdRsv w = 0#16 ∧ (cmdImm w).toNat < 2 ^ p.addrW ∧
      base = cmdImm w ∧ null = w.getLsbD 8 := by
  simp only [decode_eq_instr_iff, opcodeOfInstr, matches_iff, opcByte, subReserved, immReserved, operandsOf,
    Instr.bufBase.injEq, cmdSub_above_flag, cmdSub_flag, and_high_eq_zero_iff]
  tauto

theorem decode_eq_bufLen_iff (p : Params) (w : Cmd) (len : Word) :
    decode p w = .instr (.bufLen len) ↔
      w.extractLsb' 0 32 = 0#16 ++ 0#8 ++ 0x21#8 ∧ (cmdImm w).toNat < 2 ^ p.sizeW ∧ len = cmdImm w := by
  have wholeSub : cmdSub w &&& 0xFF#8 = cmdSub w := BitVec.and_allOnes
  simp only [decode_eq_instr_iff, opcodeOfInstr, matches_iff, opcByte, subReserved, immReserved, operandsOf,
    Instr.bufLen.injEq, cmd_low_eq_iff, wholeSub, and_high_eq_zero_iff]
  tauto

/-! ## BUF_BASE (R110) -/

theorem lowBits_toNat_of_lt {k : Nat} {v : Word} (fits : v.toNat < 2 ^ k) : lowBits k v.toNat = v := by
  rw [lowBits_of_lt fits, BitVec.ofNat_toNat, BitVec.setWidth_eq]

theorem exec_bufBase_of_fits {s : State} {base : Word} (null : Bool) (fits : base.toNat < 2 ^ s.params.addrW) :
    exec (.bufBase base null) s = .next { s with bufBase := base, bufNull := null } := by
  rw [exec, execBufBase, lowBits_toNat_of_lt fits]

/-- HDR_DEC fails without a request where the buffer or the output slot is absent or the buffer is too short (R131). -/
theorem exec_hdrDec_of_refused {s : State} {noOut : Bool}
    (refused : s.bufNull = true ∨ noOut = true ∨ s.bufLen.toNat < 8) :
    exec (.hdrDec noOut) s = .next (hdrFail s) := by
  obtain ⟨-, run⟩ | ⟨passed, -⟩ | ⟨⟨buffer, out, long, -⟩, -⟩ := execHdrDec_cases noOut s
  · exact run
  · exact absurd refused passed
  · obtain absent | absent | short := refused
    · cases absent.symm.trans buffer
    · cases absent.symm.trans out
    · exact absurd long short.not_ge

theorem exec_curRead_of_degenerate {s : State} {n : BitVec 6} (valid : s.curValid = true) (degenerate : ¬ Reads n) :
    exec (.curRead n) s = .next { s with res := 0#32 } := by
  obtain ⟨noCursor, -⟩ | ⟨-, -, run⟩ | ⟨-, reads, -⟩ := execCurRead_cases n s
  · cases noCursor.symm.trans valid
  · exact run
  · exact absurd reads degenerate

/-- The command's effect is the same over every stored base, and it leaves that base in place. -/
def IgnoresBufBase (i : Instr) (s : State) : Prop :=
  ∀ b : Word, ∃ t, exec i s = .next t ∧ exec i { s with bufBase := b } = .next { t with bufBase := b }

/-- CUR_READ takes its bytes at CUR_BASE. -/
theorem curRead_ignoresBufBase (n : BitVec 6) (s : State) : IgnoresBufBase (.curRead n) s := by
  intro b
  obtain ⟨noCursor, run⟩ | ⟨valid, degenerate, run⟩ | ⟨valid, reads, run⟩ := execCurRead_cases n s
  · exact ⟨_, run, exec_curRead_of_noCursor (s := { s with bufBase := b }) n noCursor⟩
  · exact ⟨_, run, exec_curRead_of_degenerate (s := { s with bufBase := b }) valid degenerate⟩
  · exact ⟨_, run, exec_curRead_of_reads (s := { s with bufBase := b }) valid reads⟩

theorem curFoff_ignoresBufBase (s : State) : IgnoresBufBase .curFoff s := by
  intro b
  obtain ⟨noCursor, run⟩ | ⟨valid, run⟩ := execCurFoff_cases s
  · exact ⟨_, run, exec_curFoff_of_noCursor (s := { s with bufBase := b }) noCursor⟩
  · exact ⟨_, run, exec_curFoff_of_cursor (s := { s with bufBase := b }) valid⟩

/-- Only CUR_INIT and HDR_DEC would use the base, and both check BUF_NULL first. -/
theorem ignoresBufBase_of_noBuffer {i : Instr} {s : State} (noBuffer : s.bufNull = true)
    (notBufBase : ∀ c n, i ≠ .bufBase c n) : IgnoresBufBase i s := by
  intro b
  cases i with
  | clrErr => exact ⟨_, rfl, rfl⟩
  | sizeDec w h => exact ⟨_, rfl, rfl⟩
  | sizeEnc w h => exact ⟨_, rfl, rfl⟩
  | bufBase base null => exact absurd rfl (notBufBase base null)
  | bufLen len => exact ⟨_, rfl, rfl⟩
  | curInit =>
    exact ⟨_, exec_curInit_of_noBuffer noBuffer, exec_curInit_of_noBuffer (s := { s with bufBase := b }) noBuffer⟩
  | curRead n => exact curRead_ignoresBufBase n s b
  | curFoff => exact curFoff_ignoresBufBase s b
  | hdrDec noOut =>
    exact ⟨_, exec_hdrDec_of_refused (.inl noBuffer),
      exec_hdrDec_of_refused (s := { s with bufBase := b }) (.inl noBuffer)⟩

/-- Settles O32: the write, the row of the operation, and independence from the stored base command by command. -/
theorem bufBaseResult : Obligations.BufBaseResult :=
  ⟨fun _ _ null => exec_bufBase_of_fits null, decode_eq_bufBase_iff, fun _ _ b noBuffer notBufBase =>
    ignoresBufBase_of_noBuffer noBuffer notBufBase b⟩

/-! ## BUF_LEN (R111) -/

theorem exec_bufLen_of_fits {s : State} {len : Word} (fits : len.toNat < 2 ^ s.params.sizeW) :
    exec (.bufLen len) s = .next { s with bufLen := len } := by
  rw [exec, execBufLen, lowBits_toNat_of_lt fits]

/-- A length with a bit from `SIZE_W` on is refused by decoding (R79). -/
theorem decode_long_bufLen {p : Params} (narrow : p.sizeW = 16) : decode p 0x0001000000000021#64 = .error .rsv := by
  have long : ReservedBitSet p 0x0001000000000021#64 := by
    refine .inr (.inr (.inr (.inr (.inr (.inr ⟨by decide, ?_⟩)))))
    rw [narrow]
    decide
  exact (decode_eq_rsv_iff_reservedBitSet p _).mpr ⟨by decide, long⟩

/-- Settles O33: the write, the row of the operation, and over an empty buffer the fresh cursor and the refusal of
HDR_DEC. -/
theorem bufLenResult : Obligations.BufLenResult := by
  refine ⟨fun _ _ => exec_bufLen_of_fits, decode_eq_bufLen_iff, fun _ => decode_long_bufLen, fun s empty => ⟨?_, ?_⟩⟩
  · exact fun buffer => ⟨_, exec_curInit_of_buffer buffer, empty.symm⟩
  · have short : s.bufLen.toNat < 8 := by rw [empty]; decide
    exact fun o => ⟨_, exec_hdrDec_of_refused (.inr (.inr short)), rfl⟩

/-! ## CUR_INIT (R112) -/

/-- Settles O34: the two exits of CUR_INIT, and the one word of an operation without operands. -/
theorem curInitResult : Obligations.CurInitResult :=
  ⟨fun _ => exec_curInit_of_buffer, fun _ => exec_curInit_of_noBuffer, decode_eq_curInit_iff⟩

end Sys2Proof.Machine
end

section
/-! Reading with the cursor (41_cursor.md R113 to R119): the state after one field read, the bytes it requests, and the
count of CUR_FOFF after any list of reads. -/

namespace Sys2Proof.Machine

/-! ## The state after one field read (R115, R116) -/

/-- The position of a cursor inside its buffer is kept whole in its two registers. -/
theorem curPos_afterRead {s : State} {P : Nat} (r : Word) (reqs : List Nat) (inside : P ≤ curBits s) :
    curPos (afterRead s P r reqs) = P := by
  have fits : P / 8 < 2 ^ 32 := by
    have := s.curLen.isLt
    unfold curBits at inside
    omega
  rw [curPos, afterRead, BitVec.toNat_ofNat, BitVec.toNat_ofNat, Nat.mod_eq_of_lt fits]
  omega

theorem afterRead_curByte_toNat {s : State} {P : Nat} (r : Word) (reqs : List Nat) (inside : P ≤ curBits s) :
    (afterRead s P r reqs).curByte.toNat = P / 8 := by
  have position := curPos_afterRead r reqs inside
  have bitLt := (afterRead s P r reqs).curBit.isLt
  unfold curPos at position
  omega

/-- At the end of its buffer a cursor stands at a byte boundary. -/
theorem State.CursorOk.curBit_eq_zero {s : State} (ok : s.CursorOk) (atEnd : curBits s ≤ curPos s) :
    s.curBit = 0#3 := by
  obtain ⟨le, zeroAtEnd⟩ := ok
  have bitLt := s.curBit.isLt
  unfold curPos curBits at atEnd
  exact zeroAtEnd (BitVec.eq_of_toNat_eq (by omega))

theorem writeField_eq_afterRead {c : Scan} {s : State} {P : Nat} (byteAt : c.byte = P / 8) (bitAt : c.bit = P % 8) :
    writeField c s = afterRead s P c.acc (c.reads.map (byteAddr s.params s.curBase)) := by
  rw [writeField, byteAt, bitAt]
  rfl

theorem requestCount_eq_bytesTouched {bit m : Nat} (aligned : m = 0 → bit = 0) :
    requestCount bit m = bytesTouched bit m := by
  unfold requestCount
  split
  case isTrue none => rw [none, aligned none]; rfl
  case isFalse => rfl

/-- A field read takes the `m` bits that are both wanted and left. Where it takes none, no byte may be touched, which
a cursor at a byte boundary meets. -/
theorem fieldReadState_eq_afterRead {s : State} {n : BitVec 6} {m : Nat} (reads : Reads n)
    (inside : curPos s ≤ curBits s) (taken : m = min n.toNat (curBits s - curPos s))
    (aligned : m = 0 → s.curBit = 0#3) :
    ∃ r, fieldReadState n s = afterRead s (curPos s + m) r (fieldRequests s m) ∧
      ClosedForm (streamBit s) (curPos s) m r := by
  have field := readField_spec (memRead s s.curBase) s.curLen.toNat n.toNat s.curByte.toNat s.curBit.toNat (curPos s) m
    reads.2 s.curBit.isLt rfl inside taken
  have requested : requestCount s.curBit.toNat m = bytesTouched s.curBit.toNat m :=
    requestCount_eq_bytesTouched (fun none => by rw [aligned none]; rfl)
  refine ⟨_, ?_, field.result⟩
  rw [fieldReadState, writeField_eq_afterRead field.byteAt field.bitAt, field.requests, requested, fieldRequests]

/-- A cursor at or past the end of its buffer reads 0 and does not move. -/
theorem fieldReadState_of_starved {s : State} (n : BitVec 6) (starved : s.curLen.toNat ≤ s.curByte.toNat) :
    fieldReadState n s = { s with res := 0#32 } := by
  rw [fieldReadState, readField_starved _ _ _ _ _ starved]
  simp [writeField, logReads]

/-- Settles O36: a field inside the buffer has all the bits that the read wants. -/
theorem curReadClosedForm : Obligations.CurReadClosedForm := by
  intro s n valid reads inside
  obtain ⟨r, after, closed⟩ := fieldReadState_eq_afterRead (s := s) (m := n.toNat) reads (by omega) (by omega)
    (fun none => by have := reads.1; omega)
  exact ⟨r, by rw [exec_curRead_of_reads valid reads, after], closed⟩

/-! ## The position after a read (R116, R117) -/

/-- From `s` to `t` a cursor over the same buffer has moved on by `k` bits, or to the end of its buffer where that is
nearer. -/
structure CursorMoved (s t : State) (k : Nat) : Prop where
  curValid : t.curValid = true
  cursorOk : t.CursorOk
  curLen : t.curLen = s.curLen
  position : curPos t = min (curPos s + k) (curBits s)

theorem CursorMoved.curBits_eq {s t : State} {k : Nat} (moved : CursorMoved s t k) : curBits t = curBits s :=
  congrArg (fun len => 8 * len.toNat) moved.curLen

theorem CursorMoved.of_sameCursor {s t : State} (same : SameCursor s t) (valid : s.curValid = true) (ok : s.CursorOk) :
    CursorMoved s t 0 := by
  refine ⟨same.curValid.trans valid, same.cursorOk ok, same.curLen, ?_⟩
  have stays : curPos t = curPos s := by rw [curPos, same.curByte, same.curBit, ← curPos]
  rw [stays, Nat.add_zero, Nat.min_eq_left ok.curPos_le]

theorem CursorMoved.trans {s t u : State} {k l : Nat} (first : CursorMoved s t k) (next : CursorMoved t u l) :
    CursorMoved s u (k + l) := by
  refine ⟨next.curValid, next.cursorOk, next.curLen.trans first.curLen, ?_⟩
  rw [next.position, first.position, first.curBits_eq]
  omega

theorem fieldReadState_moved {s : State} {n : BitVec 6} (valid : s.curValid = true) (ok : s.CursorOk)
    (reads : Reads n) : CursorMoved s (fieldReadState n s) n.toNat := by
  obtain ⟨r, after, -⟩ := fieldReadState_eq_afterRead reads ok.curPos_le rfl
    (fun none => ok.curBit_eq_zero (by have := reads.1; omega))
  refine ⟨valid, fieldReadState_cursorOk reads ok, rfl, ?_⟩
  have := ok.curPos_le
  rw [after, curPos_afterRead _ _ (by omega)]
  omega

/-- The closed form of no bits is 0. -/
theorem ClosedForm.eq_zero {bit : Nat → Bool} {P : Nat} {r : Word} (closed : ClosedForm bit P 0 r) : r = 0#32 :=
  closed.unique ⟨fun q from_P below => by omega, fun j _ => BitVec.getLsbD_zero⟩

/-- A read cut short takes exactly the bits that are left, and leaves the cursor at the end of its buffer. -/
theorem fieldReadState_of_cutShort {s : State} {n : BitVec 6} (reads : Reads n) (ok : s.CursorOk)
    (cutShort : curBits s ≤ curPos s + n.toNat) :
    ∃ r, fieldReadState n s = afterRead s (curBits s) r (fieldRequests s (curBits s - curPos s)) ∧
      ClosedForm (streamBit s) (curPos s) (curBits s - curPos s) r := by
  have inside := ok.curPos_le
  obtain ⟨r, after, closed⟩ := fieldReadState_eq_afterRead (m := curBits s - curPos s) reads inside (by omega)
    (fun none => ok.curBit_eq_zero (by omega))
  rw [Nat.add_sub_cancel' inside] at after
  exact ⟨r, after, closed⟩

/-- A read cut short and a read of just the bits that are left have the same closed form. -/
theorem fieldReadState_of_bitsLeft {s : State} {n : BitVec 6} (reads : Reads n) (ok : s.CursorOk)
    (cutShort : curBits s < curPos s + n.toNat) (left : 0 < curBits s - curPos s) :
    Reads (BitVec.ofNat 6 (curBits s - curPos s)) ∧
      fieldReadState (BitVec.ofNat 6 (curBits s - curPos s)) s = fieldReadState n s := by
  have atMost := reads.2
  have count : (BitVec.ofNat 6 (curBits s - curPos s)).toNat = curBits s - curPos s :=
    Nat.mod_eq_of_lt (by omega)
  have readsLeft : Reads (BitVec.ofNat 6 (curBits s - curPos s)) := by
    rw [Reads, count]
    omega
  obtain ⟨r, after, closed⟩ := fieldReadState_of_cutShort reads ok cutShort.le
  obtain ⟨r', after', closed'⟩ := fieldReadState_of_cutShort readsLeft ok (by omega)
  exact ⟨readsLeft, by rw [after, after', closed.unique closed']⟩

/-- Settles O37: a read cut short takes the bits that are left. -/
theorem curReadTruncated : Obligations.CurReadTruncated := by
  refine ⟨fun s n valid reads ok cutShort => ?_, fun s n valid reads ok => ?_⟩
  · obtain ⟨r, after, closed⟩ := fieldReadState_of_cutShort reads ok cutShort.le
    refine ⟨r, by rw [exec_curRead_of_reads valid reads, after], ?terminal, closed, ?nothingLeft, fun left => ?sameRead⟩
    case terminal =>
      apply BitVec.eq_of_toNat_eq
      rw [afterRead_curByte_toNat _ _ le_rfl, curBits]
      omega
    case nothingLeft =>
      intro none
      rw [none] at closed
      exact closed.eq_zero
    case sameRead =>
      obtain ⟨readsLeft, same⟩ := fieldReadState_of_bitsLeft reads ok cutShort left
      rw [exec_curRead_of_reads valid readsLeft, exec_curRead_of_reads valid reads, same]
  · exact ⟨_, exec_curRead_of_reads valid reads, (fieldReadState_moved valid ok reads).position⟩

/-! ## The bytes that a read requests (R119) -/

/-- The requests of one CUR_READ are the first `k` bytes from the current one on, and CUR_BYTE does not fall. -/
structure ReadsAhead (s t : State) (k : Nat) : Prop where
  requests : t.portLog = s.portLog ++ (List.range' s.curByte.toNat k).map (byteAddr s.params s.curBase)
  forward : s.curByte.toNat ≤ t.curByte.toNat

/-- A command that touches neither the port nor the position. -/
theorem ReadsAhead.none {s t : State} (portLog : t.portLog = s.portLog) (curByte : t.curByte = s.curByte) :
    ReadsAhead s t 0 := ⟨by simp [portLog], by rw [curByte]⟩

theorem fieldReadState_readsAhead {s : State} {n : BitVec 6} (reads : Reads n) :
    ∃ k, ReadsAhead s (fieldReadState n s) k ∧ k ≤ ceil8 (s.curBit.toNat + n.toNat) ∧
      (s.curByte.toNat < s.curLen.toNat → 0 < k) := by
  have bitLt := s.curBit.isLt
  have atLeastOne := reads.1
  by_cases starved : s.curLen.toNat ≤ s.curByte.toNat
  · rw [fieldReadState_of_starved n starved]
    exact ⟨0, .none rfl rfl, Nat.zero_le _, fun left => absurd left starved.not_gt⟩
  · have inside : curPos s < curBits s := by unfold curPos curBits; omega
    obtain ⟨m, taken⟩ : ∃ m, m = min n.toNat (curBits s - curPos s) := ⟨_, rfl⟩
    obtain ⟨r, after, -⟩ := fieldReadState_eq_afterRead reads inside.le taken (fun none => by omega)
    refine ⟨bytesTouched s.curBit.toNat m, ⟨by rw [after]; rfl, ?_⟩, ?_, fun _ => ?_⟩
    · rw [after, afterRead_curByte_toNat _ _ (by omega), curPos]
      omega
    · unfold bytesTouched ceil8; omega
    · unfold bytesTouched; omega

/-- Settles O42: only a field read requests bytes, and its bits span at most 7 + 32. -/
theorem readBounds : Obligations.ReadBounds := by
  refine ⟨fun s n => ?_, fun s n valid reads left => ?_⟩
  · obtain ⟨-, run⟩ | ⟨-, -, run⟩ | ⟨-, reads, run⟩ := execCurRead_cases n s
    · exact ⟨_, 0, run, (ReadsAhead.none rfl rfl).requests, by omega, by omega, le_rfl⟩
    · exact ⟨_, 0, run, (ReadsAhead.none rfl rfl).requests, by omega, by omega, le_rfl⟩
    · obtain ⟨k, ahead, bound, -⟩ := fieldReadState_readsAhead (s := s) reads
      have atMostFive : ceil8 (s.curBit.toNat + n.toNat) ≤ 5 := by
        have bitLt := s.curBit.isLt
        have atMost := reads.2
        unfold ceil8
        omega
      exact ⟨_, k, run, ahead.requests, bound.trans atMostFive, bound, ahead.forward⟩
  · obtain ⟨k, ahead, -, atLeastOne⟩ := fieldReadState_readsAhead (s := s) reads
    obtain ⟨k, rfl⟩ : ∃ j, k = j + 1 := ⟨k - 1, by have := atLeastOne left; omega⟩
    exact ⟨_, _, exec_curRead_of_reads valid reads, ahead.requests⟩

/-! ## CUR_FOFF (R114) -/

theorem fullOffset_eq_ite (s : State) :
    fullOffset s.curByte.toNat s.curBit.toNat = s.curByte.toNat + if s.curBit = 0#3 then 0 else 1 := by
  have zero : s.curBit.toNat = 0 ↔ s.curBit = 0#3 := (BitVec.toNat_eq (y := 0#3)).symm
  simp only [fullOffset, ne_eq, zero, ite_not]

/-- The consumed bytes are the position in bits, rounded up. -/
theorem fullOffset_eq_ceil8 (s : State) : fullOffset s.curByte.toNat s.curBit.toNat = ceil8 (curPos s) := by
  have bitLt := s.curBit.isLt
  unfold fullOffset ceil8 curPos
  split <;> omega

theorem State.CursorOk.fullOffset_le {s : State} (ok : s.CursorOk) :
    fullOffset s.curByte.toNat s.curBit.toNat ≤ s.curLen.toNat := by
  have inside := ok.curPos_le
  rw [fullOffset_eq_ceil8]
  unfold curBits at inside
  unfold ceil8
  omega

/-- The sum of CUR_FOFF never overflows. -/
theorem State.CursorOk.toNat_ofNat_fullOffset {s : State} (ok : s.CursorOk) :
    (BitVec.ofNat 32 (fullOffset s.curByte.toNat s.curBit.toNat)).toNat =
      fullOffset s.curByte.toNat s.curBit.toNat :=
  Nat.mod_eq_of_lt (ok.fullOffset_le.trans_lt s.curLen.isLt)

/-- Settles O39: the two exits of CUR_FOFF, a sum inside the buffer, and the one word of the operation. -/
theorem curFoffResult : Obligations.CurFoffResult := by
  refine ⟨fun _ => exec_curFoff_of_noCursor, fun s valid => ?result, fun s valid ok => ?invariant,
    decode_eq_curFoff_iff⟩
  case result => rw [exec_curFoff_of_cursor valid, fullOffset_eq_ite]
  case invariant =>
    refine ⟨_, exec_curFoff_of_cursor valid, ok.toNat_ofNat_fullOffset.trans (fullOffset_eq_ite s), fun atEnd => ?_⟩
    apply BitVec.eq_of_toNat_eq
    rw [ok.toNat_ofNat_fullOffset, fullOffset_eq_ite, if_pos (ok.2 atEnd), atEnd, Nat.add_zero]

/-! ## A list of reads (R117) -/

/-- The bits that one count asks for; a degenerate count asks for none. -/
def bitsAsked (n : BitVec 6) : Nat := if Reads n then n.toNat else 0

theorem totalBits_cons (n : BitVec 6) (ns : List (BitVec 6)) : totalBits (n :: ns) = bitsAsked n + totalBits ns := rfl

/-- A read fits the buffer exactly when the bits it asks for do; a degenerate one always does. -/
theorem reads_fit_iff {s : State} (n : BitVec 6) (ok : s.CursorOk) :
    (Reads n → curPos s + n.toNat ≤ curBits s) ↔ curPos s + bitsAsked n ≤ curBits s := by
  have inside := ok.curPos_le
  unfold bitsAsked
  split
  case isTrue reads => exact imp_iff_right reads
  case isFalse degenerate => exact iff_of_true (fun reads => absurd reads degenerate) inside

theorem exec_curRead_moved {s : State} (n : BitVec 6) (valid : s.curValid = true) (ok : s.CursorOk) :
    ∃ t, exec (.curRead n) s = .next t ∧ CursorMoved s t (bitsAsked n) := by
  unfold bitsAsked
  split
  case isTrue reads => exact ⟨_, exec_curRead_of_reads valid reads, fieldReadState_moved valid ok reads⟩
  case isFalse degenerate =>
    exact ⟨_, exec_curRead_of_degenerate valid degenerate, .of_sameCursor ⟨rfl, rfl, rfl, rfl⟩ valid ok⟩

/-- The reads after the first run from the state that it leaves. -/
theorem readSeq_cons {n : BitVec 6} {s t : State} (ns : List (BitVec 6)) (run : exec (.curRead n) s = .next t) :
    readSeq (n :: ns) s = readSeq ns t := by
  rw [readSeq, run]
  rfl

theorem noneCutShort_cons_iff {n : BitVec 6} {s t : State} (ns : List (BitVec 6))
    (run : exec (.curRead n) s = .next t) :
    NoneCutShort (n :: ns) s ↔ (Reads n → curPos s + n.toNat ≤ curBits s) ∧ NoneCutShort ns t := by
  simp [NoneCutShort, run]

theorem readSeq_moved {s : State} (ns : List (BitVec 6)) (valid : s.curValid = true) (ok : s.CursorOk) :
    ∃ u, readSeq ns s = some u ∧ CursorMoved s u (totalBits ns) := by
  induction ns generalizing s with
  | nil => exact ⟨s, rfl, .of_sameCursor (.refl s) valid ok⟩
  | cons n ns ih =>
    obtain ⟨t, run, first⟩ := exec_curRead_moved n valid ok
    obtain ⟨u, rest, next⟩ := ih first.curValid first.cursorOk
    exact ⟨u, by rw [readSeq_cons ns run, rest], first.trans next⟩

/-- No read of a list is cut short exactly when the bits they ask for together are left. -/
theorem noneCutShort_iff {s : State} (ns : List (BitVec 6)) (valid : s.curValid = true) (ok : s.CursorOk) :
    NoneCutShort ns s ↔ curPos s + totalBits ns ≤ curBits s := by
  induction ns generalizing s with
  | nil => exact iff_of_true trivial ok.curPos_le
  | cons n ns ih =>
    obtain ⟨t, run, moved⟩ := exec_curRead_moved n valid ok
    rw [noneCutShort_cons_iff ns run, reads_fit_iff n ok, ih moved.curValid moved.cursorOk, moved.position,
      moved.curBits_eq, totalBits_cons]
    omega

/-- The bytes of `T` bits are those of the bits in a buffer of `len` bytes exactly when `T` bits fit it. -/
theorem ceil8_min_eq_iff (T len : Nat) : ceil8 (min T (8 * len)) = ceil8 T ↔ T ≤ 8 * len := by
  unfold ceil8
  omega

/-- The cursor that CUR_INIT starts over the described buffer of `s0` (R112). -/
structure CursorFresh (s0 s : State) : Prop where
  curValid : s.curValid = true
  cursorOk : s.CursorOk
  start : curPos s = 0
  size : curBits s = 8 * s0.bufLen.toNat

theorem cursorFresh_of_curInit {s0 s : State} (buffer : s0.bufNull = false) (init : exec .curInit s0 = .next s) :
    CursorFresh s0 s := by
  obtain ⟨⟩ := (exec_curInit_of_buffer buffer).symm.trans init
  exact ⟨rfl, ⟨Nat.zero_le _, fun _ => rfl⟩, rfl, rfl⟩

/-- Settles O40: the reads move the fresh cursor on by their total, up to the end of the buffer, and CUR_FOFF rounds
that position up. -/
theorem truncationDetection : Obligations.TruncationDetection := by
  intro s0 s ns buffer init
  obtain ⟨valid, ok, start, size⟩ := cursorFresh_of_curInit buffer init
  obtain ⟨u, run, moved⟩ := readSeq_moved ns valid ok
  have count : (BitVec.ofNat 32 (fullOffset u.curByte.toNat u.curBit.toNat)).toNat =
      ceil8 (min (totalBits ns) (8 * s0.bufLen.toNat)) := by
    rw [moved.cursorOk.toNat_ofNat_fullOffset, fullOffset_eq_ceil8, moved.position, start, size, Nat.zero_add]
  refine ⟨u, _, run, exec_curFoff_of_cursor moved.curValid, count, ?_, ?_⟩
  · rw [count, ceil8_min_eq_iff]
  · rw [noneCutShort_iff ns valid ok, start, size, Nat.zero_add]

end Sys2Proof.Machine
end

section
/-! The Header Decoder (42_header.md): when HDR_DEC succeeds and what it then writes, that it leaves the rest of the
machine as it was, and that it decodes what was written. -/

namespace Sys2Proof.Machine

/-! ## Big-endian fields (R59, R130) -/

/-- Two bytes, the high one first, as the number they write in base 256. -/
theorem append_eq_ofNat (hi lo : Byte) : hi ++ lo = BitVec.ofNat 16 (hi.toNat * 256 + lo.toNat) := by
  apply BitVec.eq_of_toNat_eq
  have value : hi.toNat * 256 + lo.toNat < 2 ^ 16 := by omega
  rw [BitVec.toNat_ofNat, Nat.mod_eq_of_lt value, BitVec.toNat_append, ← Nat.shiftLeft_add_eq_or_of_lt lo.isLt,
    Nat.shiftLeft_eq]

/-- A 16-bit field is its two bytes again. -/
theorem high_append_low (w : BitVec 16) : w.extractLsb' 8 8 ++ w.extractLsb' 0 8 = w :=
  (BitVec.extractLsb'_append_extractLsb'_eq_extractLsb' rfl).trans BitVec.extractLsb'_eq_self

/-- The signature as three bytes and as one 24-bit value (R135). -/
theorem signature_bytes_iff (a b c : Byte) :
    (a = 0x4D#8 ∧ b = 0x4D#8 ∧ c = 0x52#8) ↔ a.toNat * 65536 + b.toNat * 256 + c.toNat = 0x4D4D52 := by
  simp only [← BitVec.toNat_inj, BitVec.toNat_ofNat]
  omega

/-! ## The exits of HDR_DEC (R131) -/

theorem not_hdrAccepts_of_refused {s : State} {noOut : Bool}
    (refused : s.bufNull = true ∨ noOut = true ∨ s.bufLen.toNat < 8) : ¬ HdrAccepts s noOut := by
  rintro ⟨buffer, out, long, -⟩
  obtain absent | absent | short := refused
  · cases absent.symm.trans buffer
  · cases absent.symm.trans out
  · exact short.not_ge long

/-- The state that HDR_DEC leaves when it accepts the header (R131). -/
def hdrAcceptedState (s : State) : State :=
  hdrSucceed (hdrByte s 3) (hdrByte s 4) (hdrByte s 5) (hdrByte s 6) (hdrByte s 7)
    (logReads s s.bufBase [0, 1, 2, 3, 4, 5, 6, 7])

theorem exec_hdrDec_of_accepts {s : State} {noOut : Bool} (accepts : HdrAccepts s noOut) :
    exec (.hdrDec noOut) s = .next (hdrAcceptedState s) := by
  obtain ⟨refused, -⟩ | ⟨-, mismatch, -⟩ | ⟨-, run⟩ := execHdrDec_cases noOut s
  · exact absurd accepts (not_hdrAccepts_of_refused refused)
  · exact absurd accepts mismatch
  · exact run

/-- The accepted header in the numbers of the closed form (R135), with its eight requests. -/
theorem hdrAcceptedState_eq (s : State) :
    hdrAcceptedState s = { s with
      hdrFlags := hdrByte s 3
      hdrWidth := BitVec.ofNat 16 ((hdrByte s 4).toNat * 256 + (hdrByte s 5).toNat)
      hdrHeight := BitVec.ofNat 16 ((hdrByte s 6).toNat * 256 + (hdrByte s 7).toNat)
      hdrCons := 8#32
      hdrOk := true
      portLog := s.portLog ++ hdrRequests s 8 } := by
  rw [← append_eq_ofNat, ← append_eq_ofNat]
  rfl

/-- HDR_OK tells whether the header was accepted: each of the two failing exits writes 0. -/
theorem exec_hdrDec_hdrOk_iff (noOut : Bool) (s : State) :
    ∃ t, exec (.hdrDec noOut) s = .next t ∧ (t.hdrOk = true ↔ HdrAccepts s noOut) := by
  obtain ⟨refused, run⟩ | ⟨-, mismatch, run⟩ | ⟨accepts, run⟩ := execHdrDec_cases noOut s
  · exact ⟨_, run, iff_of_false Bool.false_ne_true (not_hdrAccepts_of_refused refused)⟩
  · exact ⟨_, run, iff_of_false Bool.false_ne_true mismatch⟩
  · exact ⟨_, run, iff_of_true rfl accepts⟩

/-- Settles O44: the accepting exit in the numbers of R135, the verdict in HDR_OK, and the signature as one number. -/
theorem hdrDecClosedForm : Obligations.HdrDecClosedForm :=
  ⟨fun s _ accepts => by rw [exec_hdrDec_of_accepts accepts, hdrAcceptedState_eq],
    fun s noOut => exec_hdrDec_hdrOk_iff noOut s, fun _ => signature_bytes_iff _ _ _⟩

/-! ## Round trip (R137) -/

/-- Settles O47: the header's own bytes hold the signature, so it is accepted, and each field is put together again from
its two bytes. -/
theorem headerRoundTrip : Obligations.HeaderRoundTrip := by
  intro s f w h buffer long written
  simp only [List.range_succ, List.range_zero, List.nil_append, List.cons_append, List.map_cons, List.map_nil,
    List.cons.injEq, and_true] at written
  obtain ⟨sig0, sig1, sig2, flags, widthHigh, widthLow, heightHigh, heightLow⟩ := written
  have accepts : HdrAccepts s false := ⟨buffer, rfl, long, sig0, sig1, sig2⟩
  refine ⟨_, exec_hdrDec_of_accepts accepts, flags, ?width, ?height, rfl, rfl⟩
  case width => rw [hdrAcceptedState, hdrSucceed_hdrWidth, widthHigh, widthLow, high_append_low]
  case height => rw [hdrAcceptedState, hdrSucceed_hdrHeight, heightHigh, heightLow, high_append_low]

/-! ## What HDR_DEC leaves alone (R136) -/

/-- Settles O46: the requests and both kinds of exit write the port's record and the HDR registers only. -/
theorem hdrDecTouchesNothingElse : Obligations.HdrDecTouchesNothingElse := by
  intro s noOut
  obtain ⟨-, run⟩ | ⟨-, -, run⟩ | ⟨-, run⟩ := execHdrDec_cases noOut s <;>
    exact ⟨_, run, by simp⟩

end Sys2Proof.Machine
end

section
/-! The control command (43_control.md R140): what CLR_ERR writes, when it writes nothing new, its one word, and the
words next to it that raise E_RSV. -/

namespace Sys2Proof.Machine

/-! ## What CLR_ERR writes -/

theorem exec_clrErr (s : State) : exec .clrErr s = .next (clearCmdError s) := rfl

/-- With ERR = 0 the invariant of R35 has ERRCODE = 0 too, so there is nothing to clear. -/
theorem clearCmdError_of_clear {s : State} (ok : s.ErrorOk) (clear : s.err = false) : clearCmdError s = s := by
  have noCode : s.errCode = 0#4 := ok.1.mp clear
  rw [clearCmdError, ← clear, ← noCode]

/-! ## The words with the operation code of CLR_ERR -/

theorem decode_eq_clrErr_iff (p : Params) (w : Cmd) : decode p w = .instr .clrErr ↔ w = matchOf .clrErr :=
  (decode_eq_operandsOf_iff p w .clrErr).trans (matches_iff_eq w rfl rfl)

/-- CLR_ERR has no operand, so every other bit of its word is reserved (R79). -/
theorem decode_eq_rsv_of_ne_clrErr {p : Params} {w : Cmd} (operation : cmdOpc w = opcByte .clrErr)
    (other : w ≠ matchOf .clrErr) : decode p w = .error .rsv :=
  (decode_eq_rsv_iff operation).mpr (mt (matches_iff_eq w rfl rfl).mp other)

/-- Settles O24: the two cleared registers, the one word of an operation without operands, and E_RSV for every other
word with its operation code. -/
theorem clrErrResult : Obligations.ClrErrResult :=
  ⟨exec_clrErr, fun s ok clear => by rw [exec_clrErr, clearCmdError_of_clear ok clear], decode_eq_clrErr_iff,
    fun _ _ _ _ taken operation other => step_of_decode_error taken (decode_eq_rsv_of_ne_clrErr operation other)⟩

end Sys2Proof.Machine
end

section
/-! The command errors (60_exceptions.md R151 to R154): what raising one leaves, which words raise which, and that one
command reports at most one code. -/

namespace Sys2Proof.Machine

/-! ## What a command error does (R152) -/

@[simp] theorem erredCmd_err (ws : List Host.Cell) (rest : List HostEvent) (c : BitVec 4) (s : State) :
    (erredCmd ws rest c s).err = true := rfl

@[simp] theorem erredCmd_errCode (ws : List Host.Cell) (rest : List HostEvent) (c : BitVec 4) (s : State) :
    (erredCmd ws rest c s).errCode = if s.err then s.errCode else c := rfl

/-- An instruction whose own check fails raises its error and does nothing else. -/
theorem OwnError.exec_eq {s : State} {i : Instr} {e : CmdError} (own : OwnError s i e) :
    exec i s = .next (raiseCmdError e s) := by
  cases own with
  | readNoCursor n noCursor => exact exec_curRead_of_noCursor n noCursor
  | foffNoCursor noCursor => exact exec_curFoff_of_noCursor noCursor
  | initNoBuffer noBuffer => exact exec_curInit_of_noBuffer noBuffer

/-- An accepted command meets the checks as they stood before it. -/
theorem OwnError.to_beginCmd {s : State} {i : Instr} {e : CmdError} (own : OwnError s i e) (ws : List Host.Cell)
    (rest : List HostEvent) : OwnError (beginCmd ws rest s) i e := by
  cases own with
  | readNoCursor n noCursor => exact .readNoCursor n noCursor
  | foffNoCursor noCursor => exact .foffNoCursor noCursor
  | initNoBuffer noBuffer => exact .initNoBuffer noBuffer

theorem step_of_ownError {s : State} {w : Cmd} {ws : List Host.Cell} {rest : List HostEvent} {i : Instr}
    {e : CmdError} (taken : s.inbox = .command w ws :: rest) (decoded : decode s.params w = .instr i)
    (own : OwnError s i e) : step s = .next (erredCmd ws rest (errCodeOf e) s) := by
  have run : exec i (beginCmd ws rest s) = .next (raiseCmdError e (beginCmd ws rest s)) :=
    (own.to_beginCmd ws rest).exec_eq
  simp only [step, taken, runCmd, beginCmd_params, decoded, run, endOutcome]
  rfl

/-- Settles O25: decoding raises the first two errors, the instruction's own check the other two. -/
theorem raiseEffect : Obligations.RaiseEffect := fun _ _ _ _ taken =>
  ⟨step_of_decode_error taken, step_of_decode_error taken,
    fun n decoded noCursor => step_of_ownError taken decoded (.readNoCursor n noCursor),
    fun decoded noCursor => step_of_ownError taken decoded (.foffNoCursor noCursor),
    fun decoded noBuffer => step_of_ownError taken decoded (.initNoBuffer noBuffer)⟩

/-- Whichever check finds the error, the word only raises it. -/
theorem step_of_raises {s : State} {w : Cmd} {ws : List Host.Cell} {rest : List HostEvent} {e : CmdError}
    (taken : s.inbox = .command w ws :: rest) (raises : Raises s w e) :
    step s = .next (erredCmd ws rest (errCodeOf e) s) := by
  obtain rejected | ⟨rfl, noCursor, ⟨n, decoded⟩ | decoded⟩ | ⟨rfl, noBuffer, decoded⟩ := raises
  · exact step_of_decode_error taken rejected
  · exact step_of_ownError taken decoded (.readNoCursor n noCursor)
  · exact step_of_ownError taken decoded (.foffNoCursor noCursor)
  · exact step_of_ownError taken decoded (.initNoBuffer noBuffer)

/-! ## Which words raise which error (R151, R154) -/

/-- Past the two checks of decoding, the operation code says which operation a word is. -/
theorem decodesTo_iff_not_reserved (p : Params) (w : Cmd) (o : Opcode) :
    DecodesTo p w o ↔ cmdOpc w = opcByte o ∧ ¬ ReservedBitSet p w := by
  rw [decodesTo_iff_matches]
  constructor
  · intro row
    have operation : cmdOpc w = opcByte o := ((matches_iff p w o).mp row).1
    exact ⟨operation, fun reserved => (reservedBitSet_iff operation).mp reserved row⟩
  · rintro ⟨operation, clear⟩
    exact not_not.mp (mt (reservedBitSet_iff operation).mpr clear)

theorem decodesTo_iff_operandsOf (p : Params) (w : Cmd) (o : Opcode) :
    DecodesTo p w o ↔ decode p w = .instr (operandsOf w o) :=
  (decodesTo_iff_matches p w o).trans (decode_eq_operandsOf_iff p w o).symm

theorem decodesTo_curRead_iff (p : Params) (w : Cmd) :
    DecodesTo p w .curRead ↔ ∃ n, decode p w = .instr (.curRead n) := by
  constructor
  · intro reads
    exact ⟨_, (decodesTo_iff_operandsOf p w .curRead).mp reads⟩
  · rintro ⟨n, decoded⟩
    exact ⟨.curRead n, decoded, rfl⟩

/-- Decoding raises only E_ILLEGAL and E_RSV (R77). -/
theorem decode_error_cases {p : Params} {w : Cmd} {e : CmdError} (rejected : decode p w = .error e) :
    e = .illegal ∨ e = .rsv := by
  obtain ⟨-, answer⟩ | ⟨o, -, -, answer⟩ | ⟨o, -, -, answer⟩ := decode_cases p w
  · exact .inl (Decoded.error.inj (rejected.symm.trans answer))
  · exact .inr (Decoded.error.inj (rejected.symm.trans answer))
  · cases rejected.symm.trans answer

theorem raises_illegal_iff (s : State) (w : Cmd) : Raises s w .illegal ↔ cmdOpc w ∉ assignedOpcs := by
  rw [← decode_eq_illegal_iff s.params]
  simp [Raises]

theorem raises_rsv_iff (s : State) (w : Cmd) :
    Raises s w .rsv ↔ cmdOpc w ∈ assignedOpcs ∧ ReservedBitSet s.params w := by
  rw [cmdOpc, ← decode_eq_rsv_iff_reservedBitSet]
  simp [Raises]

theorem raises_noBuf_iff (s : State) (w : Cmd) :
    Raises s w .noBuf ↔ (cmdOpc w = opcByte .curInit ∧ s.bufNull = true) ∧ ¬ ReservedBitSet s.params w := by
  have decoderNever : decode s.params w ≠ .error .noBuf := fun rejected => by simpa using decode_error_cases rejected
  rw [and_right_comm, ← decodesTo_iff_not_reserved, decodesTo_iff_operandsOf, operandsOf]
  simp [Raises, decoderNever, and_comm]

theorem raises_noCur_iff (s : State) (w : Cmd) :
    Raises s w .noCur ↔
      ((cmdOpc w = opcByte .curRead ∨ cmdOpc w = opcByte .curFoff) ∧ s.curValid = false) ∧
        ¬ ReservedBitSet s.params w := by
  have decoderNever : decode s.params w ≠ .error .noCur := fun rejected => by simpa using decode_error_cases rejected
  rw [and_right_comm, or_and_right, ← decodesTo_iff_not_reserved, ← decodesTo_iff_not_reserved,
    decodesTo_curRead_iff, decodesTo_iff_operandsOf, operandsOf]
  simp [Raises, decoderNever, and_comm]

/-! ## The code that one command reports (R154) -/

/-- From a clear error state, a command that raises nothing leaves the error state clear. -/
theorem step_clear_of_not_raises {s t : State} {w : Cmd} {ws : List Host.Cell} {rest : List HostEvent}
    (taken : s.inbox = .command w ws :: rest) (run : step s = .next t) (clear : s.err = false)
    (noCode : s.errCode = 0#4) (raisesNone : ∀ e, ¬ Raises s w e) : t.err = false ∧ t.errCode = 0#4 := by
  cases (stepEffect_of_step run).errorChange with
  | kept same => exact ⟨same.err.trans clear, same.errCode.trans noCode⟩
  | reset taken' => cases taken.symm.trans taken'
  | cleared _ _ cleared => exact ⟨cleared.err, cleared.errCode⟩
  | raised taken' raises _ =>
    cases taken.symm.trans taken'
    exact absurd raises (raisesNone _)

/-- From a clear error state, a raised error is the one reported. -/
theorem step_code_of_raises {s t : State} {w : Cmd} {ws : List Host.Cell} {rest : List HostEvent} {e : CmdError}
    (taken : s.inbox = .command w ws :: rest) (run : step s = .next t) (clear : s.err = false)
    (raises : Raises s w e) : t.err = true ∧ t.errCode = errCodeOf e := by
  obtain ⟨⟩ := run.symm.trans (step_of_raises taken raises)
  simp [clear]

/-- Settles O6: each case of R154 is that the word raises one of the four errors, and the last that it raises none. -/
theorem errorPriority : Obligations.ErrorPriority := by
  intro s w ws rest taken clear noCode
  obtain ⟨t, run, -⟩ := step_stepEffect s
  have reports {e : CmdError} (raises : Raises s w e) : t.err = true ∧ t.errCode = errCodeOf e :=
    step_code_of_raises taken run clear raises
  have cursorCommand : w.extractLsb' 0 8 ∈ [0x31#8, 0x32#8] ↔
      cmdOpc w = opcByte .curRead ∨ cmdOpc w = opcByte .curFoff := by simp [cmdOpc, opcByte]
  refine ⟨t, run, fun unassigned => reports ((raises_illegal_iff s w).mpr unassigned),
    fun assigned reserved => reports ((raises_rsv_iff s w).mpr ⟨assigned, reserved⟩),
    fun assigned unreserved => ?ownCheck⟩
  rw [cursorCommand]
  refine ⟨fun noBuffer => reports ((raises_noBuf_iff s w).mpr ⟨noBuffer, unreserved⟩),
    fun noCursor => reports ((raises_noCur_iff s w).mpr ⟨noCursor, unreserved⟩),
    fun buffer cursor => step_clear_of_not_raises taken run clear noCode fun e raises => ?nothingRaised⟩
  cases e with
  | illegal => exact (raises_illegal_iff s w).mp raises assigned
  | rsv => exact unreserved ((raises_rsv_iff s w).mp raises).2
  | noCur => exact cursor ((raises_noCur_iff s w).mp raises).1
  | noBuf => exact buffer ((raises_noBuf_iff s w).mp raises).1

end Sys2Proof.Machine
end

section
/-! Command words there and back (30_encoding.md): decoding undoes encoding, a word that decodes is the word of its
instruction, and what the assembler makes of its statements. -/

namespace Sys2Proof.Machine

/-! ## The fields of an instruction's word (R70, R72) -/

@[simp] theorem cmdSub_encode (i : Instr) : cmdSub (encode i) = encodeSub i := by simp [encode]

@[simp] theorem cmdImm_encode (i : Instr) : cmdImm (encode i) = encodeImm i := by simp [encode]

/-- What the fields of an instruction's word hold besides its operands, over all instructions. -/
theorem encode_fields (i : Instr) : Laws.EncodedFields.Statement i := by
  cases i with
  | clrErr => exact Laws.EncodedFields.clrErr
  | sizeDec w h => exact Laws.EncodedFields.sizeDec w h
  | sizeEnc w h => exact Laws.EncodedFields.sizeEnc w h
  | bufBase base null => exact Laws.EncodedFields.bufBase base null
  | bufLen len => exact Laws.EncodedFields.bufLen len
  | curInit => exact Laws.EncodedFields.curInit
  | curRead n => exact Laws.EncodedFields.curRead n
  | curFoff => exact Laws.EncodedFields.curFoff
  | hdrDec noOut => exact Laws.EncodedFields.hdrDec noOut

/-- A well-formed instruction's `IMM` has no reserved bit (R79): only BASE and LEN can reach one. -/
theorem encodeImm_and_immReserved {p : Params} {i : Instr} (wf : i.wf p = true) :
    encodeImm i &&& immReserved p (opcodeOfInstr i) = 0#32 := by
  cases i with
  | bufBase base null => exact (and_high_eq_zero_iff base p.addrW).mpr (of_decide_eq_true wf)
  | bufLen len => exact (and_high_eq_zero_iff len p.sizeW).mpr (of_decide_eq_true wf)
  | sizeDec w h | sizeEnc w h => exact BitVec.and_zero
  | _ => exact BitVec.zero_and

/-- A well-formed instruction's word matches the row of its operation (R76). -/
theorem encode_matches {p : Params} {i : Instr} (wf : i.wf p = true) :
    encode i &&& maskOf p (opcodeOfInstr i) = matchOf (opcodeOfInstr i) := by
  obtain ⟨operation, noRsv, noSub⟩ := encode_fields i
  exact (matches_iff p _ _).mpr ⟨operation, noRsv, noSub, by rw [cmdImm_encode, encodeImm_and_immReserved wf]⟩

/-- A flag in the lowest bit of `SUB` is read back. -/
theorem ofBool_setWidth_getLsbD_zero (b : Bool) : ((BitVec.ofBool b).setWidth 8).getLsbD 0 = b := by
  cases b <;> rfl

/-- A count in the low six bits of `SUB` is read back. -/
theorem setWidth_extractLsb'_six (n : BitVec 6) : (n.setWidth 8).extractLsb' 0 6 = n := by
  revert n; decide

/-- The operands in an instruction's word are the instruction's own (R72). -/
theorem operandsOf_encode (i : Instr) : operandsOf (encode i) (opcodeOfInstr i) = i := by
  cases i with
  | clrErr | curInit | curFoff => rfl
  | sizeDec w h | sizeEnc w h =>
    obtain ⟨high, low⟩ := imm_halves w h
    simp only [operandsOf, opcodeOfInstr, cmdImm_encode, encodeImm, high, low]
  | bufBase base null =>
    simp only [operandsOf, opcodeOfInstr, cmdImm_encode, cmdSub_encode, encodeImm, encodeSub,
      ofBool_setWidth_getLsbD_zero]
  | bufLen len => simp only [operandsOf, opcodeOfInstr, cmdImm_encode, encodeImm]
  | curRead n => simp only [operandsOf, opcodeOfInstr, cmdSub_encode, encodeSub, setWidth_extractLsb'_six]
  | hdrDec noOut => simp only [operandsOf, opcodeOfInstr, cmdSub_encode, encodeSub, ofBool_setWidth_getLsbD_zero]

/-- Settles O1: the word matches the row of its operation and carries the instruction's operands. -/
theorem encodeThenDecode : Obligations.EncodeThenDecode := by
  intro p i wf
  rw [decode_of_matches (encode_matches wf), operandsOf_encode]

/-! ## From a word to its instruction and back -/

/-- Where the other seven bits are reserved, `SUB` is its flag. -/
theorem encodeSub_of_flag {x : Byte} (reserved : x &&& 0xFE#8 = 0#8) :
    (BitVec.ofBool (x.getLsbD 0)).setWidth 8 = x := by
  revert x; decide

/-- Where the other two bits are reserved, `SUB` is its count. -/
theorem encodeSub_of_count {x : Byte} (reserved : x &&& 0xC0#8 = 0#8) : (x.extractLsb' 0 6).setWidth 8 = x := by
  revert x; decide

/-- A `SUB` without a reserved bit is the one of the operands taken from it. -/
theorem encodeSub_operandsOf {w : Cmd} {o : Opcode} (reserved : cmdSub w &&& subReserved o = 0#8) :
    encodeSub (operandsOf w o) = cmdSub w := by
  have wholeSub : cmdSub w &&& 0xFF#8 = cmdSub w := BitVec.and_allOnes
  cases o with
  | bufBase | hdrDec => exact encodeSub_of_flag reserved
  | curRead => exact encodeSub_of_count reserved
  | _ => exact reserved.symm.trans wholeSub

/-- An `IMM` without a reserved bit is the one of the operands taken from it. -/
theorem encodeImm_operandsOf {p : Params} {w : Cmd} {o : Opcode} (reserved : cmdImm w &&& immReserved p o = 0#32) :
    encodeImm (operandsOf w o) = cmdImm w := by
  have wholeImm : cmdImm w &&& BitVec.allOnes 32 = cmdImm w := BitVec.and_allOnes
  cases o with
  | sizeDec | sizeEnc => exact imm_of_halves (cmdImm w)
  | bufBase | bufLen => rfl
  | _ => exact reserved.symm.trans wholeImm

/-- A word that matches a row is the word of the operands taken from it. -/
theorem encode_operandsOf {p : Params} {w : Cmd} {o : Opcode} (row : w &&& maskOf p o = matchOf o) :
    encode (operandsOf w o) = w := by
  obtain ⟨operation, noRsv, noSub, noImm⟩ := (matches_iff p w o).mp row
  rw [encode, encodeSub_operandsOf noSub, encodeImm_operandsOf noImm, opcodeOfInstr_operandsOf, ← operation, ← noRsv,
    packCmd_fields]

theorem wf_operandsOf {p : Params} {w : Cmd} {o : Opcode} (row : w &&& maskOf p o = matchOf o) :
    (operandsOf w o).wf p = true := by
  obtain ⟨-, -, -, noImm⟩ := (matches_iff p w o).mp row
  cases o with
  | bufBase => exact decide_eq_true ((and_high_eq_zero_iff (cmdImm w) p.addrW).mp noImm)
  | bufLen => exact decide_eq_true ((and_high_eq_zero_iff (cmdImm w) p.sizeW).mp noImm)
  | _ => rfl

/-- Settles O2: a word that decodes matches the row of an operation, and its fields are those of its operands. -/
theorem decodeThenEncode : Obligations.DecodeThenEncode := by
  intro p w i decoded
  obtain ⟨o, row, rfl, -⟩ := decode_instr decoded
  exact ⟨encode_operandsOf row, wf_operandsOf row⟩

/-! ## What the assembler makes (R81, R82) -/

/-- Every word of an assembler's answer decodes to a well-formed instruction. -/
def AllDecode (p : Params) (answer : Option (List Cmd)) : Prop :=
  ∀ ws, answer = some ws → ∀ w ∈ ws, ∃ i, decode p w = .instr i ∧ i.wf p = true

theorem AllDecode.encode {p : Params} {i : Instr} (wf : i.wf p = true) : AllDecode p (some [encode i]) := by
  rintro ws ⟨⟩ w hw
  obtain rfl : w = Sys2Proof.encode i := by simpa using hw
  exact ⟨i, encodeThenDecode p i wf, wf⟩

theorem AllDecode.error (p : Params) : AllDecode p none := by
  rintro ws ⟨⟩

theorem AllDecode.append {p : Params} {x y : Option (List Cmd)} (first : AllDecode p x) (next : AllDecode p y) :
    AllDecode p (x.bind fun a => y.bind fun b => some (a ++ b)) := by
  intro ws answer w hw
  obtain ⟨a, rfl, rest⟩ := Option.bind_eq_some_iff.mp answer
  obtain ⟨b, rfl, ⟨⟩⟩ := Option.bind_eq_some_iff.mp rest
  obtain inFirst | inNext := List.mem_append.mp hw
  · exact first a rfl w inFirst
  · exact next b rfl w inNext

/-- One instruction's word is the statement's answer where its operands are in range. -/
theorem asmIf_bind_single (inRange : Bool) (i : Instr) :
    ((asmIf inRange i).bind fun a => some [a]) = if inRange then some [encode i] else none := by
  cases inRange <;> rfl

/-- The check of the range has to make the instruction well formed. -/
theorem AllDecode.asmIf {p : Params} {inRange : Bool} {i : Instr} (wf : inRange = true → i.wf p = true) :
    AllDecode p ((asmIf inRange i).bind fun a => some [a]) := by
  rw [asmIf_bind_single]
  split
  case isTrue fits => exact .encode (wf fits)
  case isFalse => exact .error p

theorem wf_bufBase_ofNat {p : Params} {base : Nat} (null : Bool) (fits : base < 2 ^ p.addrW) :
    (Instr.bufBase (BitVec.ofNat 32 base) null).wf p = true := by
  refine decide_eq_true (lt_of_le_of_lt ?_ fits)
  rw [BitVec.toNat_ofNat]
  exact Nat.mod_le _ _

theorem wf_bufLen_ofNat {p : Params} {len : Nat} (fits : len < 2 ^ p.sizeW) :
    (Instr.bufLen (BitVec.ofNat 32 len)).wf p = true := by
  refine decide_eq_true (lt_of_le_of_lt ?_ fits)
  rw [BitVec.toNat_ofNat]
  exact Nat.mod_le _ _

theorem allDecode_bufBase (p : Params) (base : Nat) : AllDecode p (assemble p (.bufBase base)) :=
  .asmIf fun inRange => wf_bufBase_ofNat false (of_decide_eq_true inRange).1

theorem allDecode_bufBaseNull (p : Params) (base : Nat) : AllDecode p (assemble p (.bufBaseNull base)) :=
  .asmIf fun inRange => wf_bufBase_ofNat true (of_decide_eq_true inRange).1

theorem allDecode_bufLen (p : Params) (len : Nat) : AllDecode p (assemble p (.bufLen len)) :=
  .asmIf fun inRange => wf_bufLen_ofNat (of_decide_eq_true inRange).1

theorem allDecode_bufSet (p : Params) (base len : Nat) : AllDecode p (assemble p (.bufSet base len)) := by
  rw [assemble_bufSet]
  exact (allDecode_bufBase p base).append (allDecode_bufLen p len)

theorem allDecode_curRead (p : Params) (n : Nat) : AllDecode p (assemble p (.curRead n)) :=
  .asmIf fun _ => rfl

/-- Settles O8, statement by statement: one instruction is in range and so well formed, and a pseudo-instruction is the
words of its expansion (R82). -/
theorem assembledWordsDecode : Obligations.AssembledWordsDecode := by
  intro p st ws answer notWord
  revert ws
  change AllDecode p (assemble p st)
  cases st with
  | clrErr | curInit | curFoff | hdrDec | hdrDecNoOut => exact .encode rfl
  | sizeDec w h | sizeEnc w h => exact .asmIf fun _ => rfl
  | bufBase base => exact allDecode_bufBase p base
  | bufBaseNull base => exact allDecode_bufBaseNull p base
  | bufLen len => exact allDecode_bufLen p len
  | curRead n => exact allDecode_curRead p n
  | word v => exact absurd rfl (notWord v)
  | bufNull => exact allDecode_bufBaseNull p 0
  | bufSet base len => exact allDecode_bufSet p base len
  | curOpen base len =>
    obtain ⟨-, -, curOpen, -⟩ := pseudoExpansions p base len
    rw [curOpen]
    exact (allDecode_bufSet p base len).append (.encode rfl)
  | hdrParse base len =>
    obtain ⟨-, -, -, hdrParse, -⟩ := pseudoExpansions p base len
    rw [hdrParse]
    exact (allDecode_bufSet p base len).append (.encode rfl)
  | curSkip n =>
    obtain ⟨-, -, -, -, curSkip⟩ := pseudoExpansions p 0 n
    rw [curSkip]
    split
    case isTrue => exact allDecode_curRead p n
    case isFalse => exact .error p

/-- The answer of one instruction's statement, with its check of the range as a condition. -/
theorem asmIf_bind_single_decide {c d : Prop} [Decidable c] [Decidable d] (same : c ↔ d) (i : Instr) :
    ((asmIf (decide c) i).bind fun a => some [a]) = if d then some [encode i] else none := by
  rw [asmIf_bind_single]
  simp only [decide_eq_true_eq, same]

/-- A value below `2^k` fits 32 bits at every legal width `k`. -/
theorem lt_and_lt_word_iff {k v : Nat} (width : k ≤ 32) : v < 2 ^ k ∧ v < 2 ^ 32 ↔ v < 2 ^ k :=
  and_iff_left_of_imp fun fits => fits.trans_le (Nat.pow_le_pow_right (by decide) width)

theorem lt_halfWords_iff (a b : Nat) : a < 2 ^ 16 ∧ b < 2 ^ 16 ↔ a ≤ 0xFFFF ∧ b ≤ 0xFFFF := by omega

/-- Settles O9: each check of the assembler is the range of the fields that the operands go to. -/
theorem assemblerRefusesOutOfRange : Obligations.AssemblerRefusesOutOfRange := by
  rintro p ⟨-, sizeW, -, addrW⟩ a b
  exact ⟨asmIf_bind_single_decide (lt_halfWords_iff a b) _, asmIf_bind_single_decide (lt_halfWords_iff a b) _,
    asmIf_bind_single_decide (lt_and_lt_word_iff addrW) _, asmIf_bind_single_decide (lt_and_lt_word_iff addrW) _,
    asmIf_bind_single_decide (lt_and_lt_word_iff sizeW) _, asmIf_bind_single_decide Iff.rfl _⟩

end Sys2Proof.Machine
end

section
/-! What a command and a step leave alone (10_state.md section 7; 00_scope.md section 3): the registers of another
writer, the parameters, the memory; and how a step takes its event. -/

namespace Sys2Proof.Machine

/-! ## The registers of another writer (R41) -/

/-- Settles O54, command by command: each exit writes the registers that the map gives the command, and the two failing
exits of HDR_DEC spare the output record. -/
theorem registerWriters : Obligations.RegisterWriters := by
  intro i s
  cases i with
  | clrErr => exact ⟨_, exec_clrErr s, by simp⟩
  | sizeDec w h => exact ⟨_, exec_sizeDec w h s, by simp⟩
  | sizeEnc w h => exact ⟨_, exec_sizeEnc w h s, by simp⟩
  | bufBase base null => exact ⟨_, rfl, by simp⟩
  | bufLen len => exact ⟨_, rfl, by simp⟩
  | curInit =>
    obtain ⟨-, run⟩ | ⟨-, run⟩ := execCurInit_cases s
    · exact ⟨_, run, by simp⟩
    · exact ⟨_, run, by simp⟩
  | curRead n =>
    obtain ⟨-, run⟩ | ⟨-, -, run⟩ | ⟨-, -, run⟩ := execCurRead_cases n s
    · exact ⟨_, run, by simp⟩
    · exact ⟨_, run, by simp⟩
    · exact ⟨_, run, by simp⟩
  | curFoff =>
    obtain ⟨-, run⟩ | ⟨-, run⟩ := execCurFoff_cases s
    · exact ⟨_, run, by simp⟩
    · exact ⟨_, run, by simp⟩
  | hdrDec noOut =>
    obtain ⟨-, run⟩ | ⟨-, -, run⟩ | ⟨-, run⟩ := execHdrDec_cases noOut s
    · exact ⟨_, run, by simp⟩
    · exact ⟨_, run, by simp⟩
    · exact ⟨_, run, by simp⟩

/-- Settles O52: CUR_READ moves forward (R119), and no other command but CUR_INIT writes the position. -/
theorem bytePositionNeverFalls : Obligations.BytePositionNeverFalls := by
  intro i s notInit
  obtain ⟨u, carried, -, -, -, position, -⟩ := registerWriters i s
  cases i with
  | curInit => exact absurd rfl notInit
  | curRead n =>
    obtain ⟨t, -, run, -, -, -, forward⟩ := readBounds.1 s n
    exact ⟨t, run, forward⟩
  | _ =>
    obtain ⟨curByte, -⟩ := position notInit nofun
    exact ⟨u, carried, by rw [curByte]⟩

/-! ## The parameters and the memory (R8, R50) -/

/-- What no command writes: the parameters, the memory and the host's writes that race with it. -/
structure SameSurroundings (s t : State) : Prop where
  params : t.params = s.params
  mem : t.mem = s.mem
  racing : t.racing = s.racing

theorem exec_sameSurroundings (i : Instr) (s : State) : ∃ t, exec i s = .next t ∧ SameSurroundings s t := by
  cases i with
  | clrErr | sizeDec | sizeEnc | bufBase | bufLen => exact ⟨_, rfl, rfl, rfl, rfl⟩
  | curInit => obtain ⟨-, run⟩ | ⟨-, run⟩ := execCurInit_cases s <;> exact ⟨_, run, rfl, rfl, rfl⟩
  | curRead n =>
    obtain ⟨-, run⟩ | ⟨-, -, run⟩ | ⟨-, -, run⟩ := execCurRead_cases n s <;> exact ⟨_, run, rfl, rfl, rfl⟩
  | curFoff => obtain ⟨-, run⟩ | ⟨-, run⟩ := execCurFoff_cases s <;> exact ⟨_, run, rfl, rfl, rfl⟩
  | hdrDec noOut =>
    obtain ⟨-, run⟩ | ⟨-, -, run⟩ | ⟨-, run⟩ := execHdrDec_cases noOut s <;> exact ⟨_, run, rfl, rfl, rfl⟩

theorem sameSurroundings_of_exec {i : Instr} {s t : State} (run : exec i s = .next t) : SameSurroundings s t := by
  obtain ⟨u, run', same⟩ := exec_sameSurroundings i s
  obtain ⟨⟩ := run.symm.trans run'
  exact same

/-! ## How a step takes its event (R77, R170, R175) -/

/-- All that a command word can do: decoding turns it away, or its instruction runs. -/
inductive CmdRun (w : Cmd) (s : State) : State → Prop
  | rejected {e : CmdError} (decoded : decode s.params w = .error e) : CmdRun w s (raiseCmdError e s)
  | ran {i : Instr} {t : State} (decoded : decode s.params w = .instr i) (run : exec i s = .next t) : CmdRun w s t

theorem step_of_decode_instr {s : State} {w : Cmd} {ws : List Host.Cell} {rest : List HostEvent} {i : Instr}
    (taken : s.inbox = .command w ws :: rest) (decoded : decode s.params w = .instr i) :
    step s = endOutcome ws (exec i (beginCmd ws rest s)) := by
  simp only [step, taken, runCmd, beginCmd_params, decoded]

/-- Settles O11: the step decodes at the parameters that accepting a command keeps. -/
theorem stepRunsDecoded : Obligations.StepRunsDecoded :=
  fun _ _ _ _ _ taken decoded => step_of_decode_instr taken decoded

/-- An accepted word runs between `beginCmd` and `endCmd`. -/
theorem step_of_command {s : State} {w : Cmd} {ws : List Host.Cell} {rest : List HostEvent}
    (taken : s.inbox = .command w ws :: rest) :
    ∃ t, step s = .next (endCmd ws t) ∧ CmdRun w (beginCmd ws rest s) t := by
  cases decoded : decode s.params w with
  | error e => exact ⟨_, step_of_decode_error taken decoded, .rejected decoded⟩
  | instr i =>
    obtain ⟨t, run, -⟩ := exec_sameSurroundings i (beginCmd ws rest s)
    exact ⟨t, by rw [step_of_decode_instr taken decoded, run]; rfl, .ran decoded run⟩

/-- All that a step can do. -/
inductive StepRun (s : State) : State → Prop
  | idle (empty : s.inbox = []) : StepRun s s
  | reset {rest : List HostEvent} (taken : s.inbox = .reset :: rest) :
      StepRun s (resetRegisters { s with inbox := rest })
  | written {c : Host.Cell} {rest : List HostEvent} (taken : s.inbox = .write c :: rest) :
      StepRun s { s with inbox := rest, mem := hostWrite s.params s.mem c }
  | command {w : Cmd} {ws : List Host.Cell} {rest : List HostEvent} {t : State}
      (taken : s.inbox = .command w ws :: rest) (ran : CmdRun w (beginCmd ws rest s) t) : StepRun s (endCmd ws t)

theorem step_of_idle {s : State} (empty : s.inbox = []) : step s = .next s := by
  simp only [step, empty]

theorem step_of_reset {s : State} {rest : List HostEvent} (taken : s.inbox = .reset :: rest) :
    step s = .next (resetRegisters { s with inbox := rest }) := by
  simp only [step, taken]

theorem step_of_write {s : State} {c : Host.Cell} {rest : List HostEvent} (taken : s.inbox = .write c :: rest) :
    step s = .next { s with inbox := rest, mem := hostWrite s.params s.mem c } := by
  simp only [step, taken]

theorem step_stepRun (s : State) : ∃ t, step s = .next t ∧ StepRun s t := by
  cases taken : s.inbox with
  | nil => exact ⟨_, step_of_idle taken, .idle taken⟩
  | cons event rest =>
    cases event with
    | reset => exact ⟨_, step_of_reset taken, .reset taken⟩
    | write c => exact ⟨_, step_of_write taken, .written taken⟩
    | command w ws =>
      obtain ⟨t, run, ran⟩ := step_of_command taken
      exact ⟨_, run, .command taken ran⟩

theorem stepRun_of_step {s t : State} (run : step s = .next t) : StepRun s t := by
  obtain ⟨u, run', shape⟩ := step_stepRun s
  obtain ⟨⟩ := run.symm.trans run'
  exact shape

/-- Settles O12. -/
theorem idleLosesNoState : Obligations.IdleLosesNoState := fun _ => step_of_idle

/-- Settles O13: no exit of a command and no event of a step answers anything but a next state. -/
theorem everythingCompletes : Obligations.EverythingCompletes := by
  refine ⟨fun i s => ?command, fun s => ?step⟩
  case command =>
    obtain ⟨t, run, -⟩ := exec_sameSurroundings i s
    exact ⟨t, run⟩
  case step =>
    obtain ⟨t, run, -⟩ := step_stepRun s
    exact ⟨t, run⟩

/-- Settles O16: the registers after a reset are those of `State.reset`, and its record of requests is empty. -/
theorem resetEvent : Obligations.ResetEvent := fun _ _ taken => ⟨_, step_of_reset taken, resetValues, rfl⟩

/-! ## The parameters and the memory over a step -/

theorem CmdRun.sameSurroundings {w : Cmd} {s t : State} (ran : CmdRun w s t) : SameSurroundings s t := by
  cases ran with
  | rejected _ => exact ⟨rfl, rfl, rfl⟩
  | ran _ run => exact sameSurroundings_of_exec run

theorem StepRun.params {s t : State} (shape : StepRun s t) : t.params = s.params := by
  cases shape with
  | idle | reset | written => rfl
  | command _ ran => exact ran.sameSurroundings.params

/-- Settles O14: reset and host writes spare the parameters, and so does every command. -/
theorem parametersNeverChange : Obligations.ParametersNeverChange := fun _ _ run => (stepRun_of_step run).params

/-- A step that takes a command word changes the memory by the host's writes during it, and by nothing else (R65). -/
theorem step_mem_of_command {s : State} {w : Cmd} {ws : List Host.Cell} {rest : List HostEvent}
    (taken : s.inbox = .command w ws :: rest) :
    ∃ t, step s = .next t ∧ t.mem = hostWrites s.params s.mem ws := by
  obtain ⟨t, run, ran⟩ := step_of_command taken
  have same := ran.sameSurroundings
  exact ⟨_, run, by rw [endCmd_mem, same.params, same.mem, beginCmd_params, beginCmd_mem]⟩

/-- Settles O19: no exit of a command writes the memory, and without a host write nothing lands at its end. -/
theorem commandsNeverWriteMemory : Obligations.CommandsNeverWriteMemory := by
  refine ⟨fun i s => ?_, fun s w rest taken => step_mem_of_command taken⟩
  obtain ⟨t, run, same⟩ := exec_sameSurroundings i s
  exact ⟨t, run, same.mem⟩

/-- Settles O18: the host's write is one write of memory at the address of its port. -/
theorem hostWriteIsSeen : Obligations.HostWriteIsSeen :=
  fun _ _ _ taken canonical => ⟨_, step_of_write taken, fun a => Memory.read_write _ _ a canonical⟩

end Sys2Proof.Machine
end

section
/-! The byte-read port (70_reset_and_hazards.md R180): how many bytes a command requests, and where they are. -/

namespace Sys2Proof.Machine

/-- The most bytes that one command of an operation requests (R119, R131, R180). -/
def maxRequests : Opcode → Nat
  | .curRead => 5
  | .hdrDec  => 8
  | .clrErr | .sizeDec | .sizeEnc | .bufBase | .bufLen | .curInit | .curFoff => 0

theorem maxRequests_le (o : Opcode) : maxRequests o ≤ 8 := by cases o <;> decide

theorem maxRequests_of_noReads {o : Opcode} (notRead : o ≠ .curRead) (notHdr : o ≠ .hdrDec) : maxRequests o = 0 := by
  cases o with
  | curRead => exact absurd rfl notRead
  | hdrDec => exact absurd rfl notHdr
  | _ => rfl

/-- From `s` to `t` the port has served at most `k` more requests, each for a byte of one buffer. -/
def RequestsAtMost (s t : State) (k : Nat) : Prop :=
  ∃ (base : Word) (is : List Nat), is.length ≤ k ∧ t.portLog = s.portLog ++ is.map (byteAddr s.params base)

theorem RequestsAtMost.none {s t : State} (portLog : t.portLog = s.portLog) (k : Nat) : RequestsAtMost s t k :=
  ⟨0#32, [], Nat.zero_le k, by rw [portLog, List.map_nil, List.append_nil]⟩

theorem hdrDec_requestsAtMost (noOut : Bool) (s : State) :
    ∃ t, exec (.hdrDec noOut) s = .next t ∧ RequestsAtMost s t 8 := by
  obtain ⟨-, run⟩ | ⟨-, -, run⟩ | ⟨-, run⟩ := execHdrDec_cases noOut s
  · exact ⟨_, run, .none rfl 8⟩
  · exact ⟨_, run, s.bufBase, [0, 1, 2], by decide, rfl⟩
  · exact ⟨_, run, s.bufBase, [0, 1, 2, 3, 4, 5, 6, 7], by decide, rfl⟩

/-- CUR_READ keeps the bound of R119, HDR_DEC reads at most the header, and no other command reaches memory (R51). -/
theorem exec_requestsAtMost (i : Instr) (s : State) :
    ∃ t, exec i s = .next t ∧ RequestsAtMost s t (maxRequests (opcodeOfInstr i)) := by
  have requestsNone := onlyTwoCommandsReachMemory i s s.mem
  cases i with
  | curRead n =>
    obtain ⟨t, k, run, requests, atMostFive, -, -⟩ := readBounds.1 s n
    exact ⟨t, run, s.curBase, List.range' s.curByte.toNat k, by rw [List.length_range']; exact atMostFive, requests⟩
  | hdrDec noOut => exact hdrDec_requestsAtMost noOut s
  | _ =>
    obtain ⟨t, run, portLog, -⟩ := requestsNone nofun nofun
    exact ⟨t, run, .none portLog _⟩

theorem requestsAtMost_of_exec {i : Instr} {s t : State} (run : exec i s = .next t) :
    RequestsAtMost s t (maxRequests (opcodeOfInstr i)) := by
  obtain ⟨u, run', requests⟩ := exec_requestsAtMost i s
  obtain ⟨⟩ := run.symm.trans run'
  exact requests

theorem RequestsAtMost.length_le {s t : State} {k : Nat} (requests : RequestsAtMost s t k) (fresh : s.portLog = []) :
    t.portLog.length ≤ k := by
  obtain ⟨base, is, few, portLog⟩ := requests
  rwa [portLog, fresh, List.nil_append, List.length_map]

/-- Each request of a command is for an address of `ADDR_W` bits (R13). -/
theorem RequestsAtMost.lt {s t : State} {k : Nat} (requests : RequestsAtMost s t k) (fresh : s.portLog = []) :
    ∀ a ∈ t.portLog, a < 2 ^ s.params.addrW := by
  obtain ⟨base, is, -, portLog⟩ := requests
  rw [portLog, fresh, List.nil_append, List.forall_mem_map]
  exact fun i _ => byteAddr_lt s.params base i

theorem decodesTo_iff_of_decode {p : Params} {w : Cmd} {i : Instr} (decoded : decode p w = .instr i) (o : Opcode) :
    DecodesTo p w o ↔ opcodeOfInstr i = o := by
  constructor
  · rintro ⟨j, decoded', operation⟩
    obtain ⟨⟩ := decoded.symm.trans decoded'
    exact operation
  · exact fun operation => ⟨i, decoded, operation⟩

/-- The bounds of R180 on the record of one command that the port served from the start. -/
theorem CmdRun.portLog_bounds {w : Cmd} {s t : State} (ran : CmdRun w s t) (fresh : s.portLog = []) :
    (DecodesTo s.params w .curRead → t.portLog.length ≤ 5) ∧ (DecodesTo s.params w .hdrDec → t.portLog.length ≤ 8) ∧
    (¬ DecodesTo s.params w .curRead → ¬ DecodesTo s.params w .hdrDec → t.portLog = []) := by
  cases ran with
  | rejected _ => simp [fresh]
  | @ran i t decoded run =>
    have few := (requestsAtMost_of_exec run).length_le fresh
    simp only [decodesTo_iff_of_decode decoded]
    refine ⟨fun read => ?_, fun hdr => ?_, fun notRead notHdr => ?_⟩
    · rwa [read] at few
    · rwa [hdr] at few
    · rw [maxRequests_of_noReads notRead notHdr] at few
      exact List.eq_nil_of_length_eq_zero (Nat.le_zero.mp few)

/-- Settles O21: accepting a command empties the record, and ending it adds nothing. -/
theorem requestsPerCommand : Obligations.RequestsPerCommand := by
  intro s w ws rest taken
  obtain ⟨t, run, ran⟩ := step_of_command taken
  exact ⟨_, run, ran.portLog_bounds rfl⟩

end Sys2Proof.Machine
end

section
/-! The invariant of the machine (10_state.md, sections 3, 5 and 7): each part of it holds at reset, and every step keeps
it. The cursor and the error state have theirs from what a step can do to them. -/

namespace Sys2Proof.Machine

/-- Settles O48: State.reset is one state, and each part of the invariant is a closed fact about it. -/
theorem invariantAtReset : Obligations.InvariantAtReset :=
  ⟨by decide, by decide, reset_cursorOk, reset_errorOk, by decide, by decide, by decide⟩

/-! ## The widths of the registers (R41) -/

/-- A value stored at a width has no bit above it (R11). -/
theorem lowBits_lt (k v : Nat) : (lowBits k v).toNat < 2 ^ k := by
  rw [lowBits, BitVec.toNat_ofNat]
  exact (Nat.mod_le _ _).trans_lt (Nat.mod_lt _ (Nat.two_pow_pos k))

theorem writeSize_szVal_lt (ovf : Bool) (v : Nat) (s : State) :
    (writeSize ovf v s).szVal.toNat < 2 ^ s.params.sizeW := by
  cases ovf with
  | true => exact Nat.two_pow_pos _
  | false => exact lowBits_lt _ _

/-- Every legal size type holds the header's size (R8, R10). -/
theorem hdrSize_lt {p : Params} (legal : p.Legal) : hdrSize < 2 ^ p.sizeW := by
  obtain ⟨wide, -, -, -⟩ := legal
  exact Nat.lt_of_lt_of_le (by decide) (Nat.pow_le_pow_right (by decide) wide)

theorem writeSize_widthsOk {s : State} (ovf : Bool) (v : Nat) (ok : s.WidthsOk) : (writeSize ovf v s).WidthsOk := by
  obtain ⟨bufBase, curBase, bufLen, curLen, curByte, -, hdrCons⟩ := ok
  exact ⟨bufBase, curBase, bufLen, curLen, curByte, writeSize_szVal_lt ovf v s, hdrCons⟩

/-- A read leaves the position inside the buffer, whose length fits the size type. -/
theorem fieldReadState_widthsOk {s : State} {n : BitVec 6} (reads : Reads n) (cursor : s.CursorOk) (ok : s.WidthsOk) :
    (fieldReadState n s).WidthsOk := by
  obtain ⟨bufBase, curBase, bufLen, curLen, -, szVal, hdrCons⟩ := ok
  obtain ⟨inside, -⟩ := fieldReadState_cursorOk reads cursor
  exact ⟨bufBase, curBase, bufLen, curLen, inside.trans_lt curLen, szVal, hdrCons⟩

/-- HDR_DEC writes one register of `SIZE_W` bits, HDR_CONS, with 0 or the header's size. -/
theorem hdrDec_widthsOk {s : State} (noOut : Bool) (legal : s.params.Legal) (ok : s.WidthsOk) :
    ∃ t, exec (.hdrDec noOut) s = .next t ∧ t.WidthsOk := by
  obtain ⟨bufBase, curBase, bufLen, curLen, curByte, szVal, -⟩ := ok
  obtain ⟨-, run⟩ | ⟨-, -, run⟩ | ⟨-, run⟩ := execHdrDec_cases noOut s
  · exact ⟨_, run, bufBase, curBase, bufLen, curLen, curByte, szVal, Nat.two_pow_pos _⟩
  · exact ⟨_, run, bufBase, curBase, bufLen, curLen, curByte, szVal, Nat.two_pow_pos _⟩
  · exact ⟨_, run, bufBase, curBase, bufLen, curLen, curByte, szVal, hdrSize_lt legal⟩

theorem exec_keeps_widthsOk {s : State} (i : Instr) (legal : s.params.Legal) (cursor : s.CursorOk) (ok : s.WidthsOk) :
    ∃ t, exec i s = .next t ∧ t.WidthsOk := by
  have ⟨bufBase, curBase, bufLen, curLen, curByte, szVal, hdrCons⟩ := ok
  cases i with
  | clrErr => exact ⟨_, exec_clrErr s, ok⟩
  | sizeDec w h => exact ⟨_, exec_sizeDec w h s, writeSize_widthsOk _ _ ok⟩
  | sizeEnc w h => exact ⟨_, exec_sizeEnc w h s, writeSize_widthsOk _ _ ok⟩
  | bufBase base null => exact ⟨_, rfl, lowBits_lt _ _, curBase, bufLen, curLen, curByte, szVal, hdrCons⟩
  | bufLen len => exact ⟨_, rfl, bufBase, curBase, lowBits_lt _ _, curLen, curByte, szVal, hdrCons⟩
  | curInit =>
    obtain ⟨-, run⟩ | ⟨-, run⟩ := execCurInit_cases s
    · exact ⟨_, run, ok⟩
    · exact ⟨_, run, bufBase, bufBase, bufLen, bufLen, Nat.two_pow_pos _, szVal, hdrCons⟩
  | curRead n =>
    obtain ⟨-, run⟩ | ⟨-, -, run⟩ | ⟨-, reads, run⟩ := execCurRead_cases n s
    · exact ⟨_, run, ok⟩
    · exact ⟨_, run, ok⟩
    · exact ⟨_, run, fieldReadState_widthsOk reads cursor ok⟩
  | curFoff =>
    obtain ⟨-, run⟩ | ⟨-, run⟩ := execCurFoff_cases s
    · exact ⟨_, run, ok⟩
    · exact ⟨_, run, ok⟩
  | hdrDec noOut => exact hdrDec_widthsOk noOut legal ok

/-! ## The sentinels (R32, R34) -/

theorem writeSize_resultsOk {s : State} (ovf : Bool) (v : Nat) (ok : s.ResultsOk) : (writeSize ovf v s).ResultsOk := by
  obtain ⟨-, header⟩ := ok
  exact ⟨fun set => if_pos set, header⟩

theorem hdrFail_resultsOk {s : State} (ok : s.ResultsOk) : (hdrFail s).ResultsOk := by
  obtain ⟨size, -⟩ := ok
  exact ⟨size, Bool.noConfusion, fun _ => rfl⟩

theorem hdrAcceptedState_resultsOk {s : State} (ok : s.ResultsOk) : (hdrAcceptedState s).ResultsOk := by
  obtain ⟨size, -⟩ := ok
  exact ⟨size, fun _ => rfl, Bool.noConfusion⟩

theorem exec_keeps_resultsOk {s : State} (i : Instr) (ok : s.ResultsOk) : ∃ t, exec i s = .next t ∧ t.ResultsOk := by
  obtain ⟨u, carried, -, -, -, -, -, size, header, -⟩ := registerWriters i s
  cases i with
  | sizeDec w h => exact ⟨_, exec_sizeDec w h s, writeSize_resultsOk _ _ ok⟩
  | sizeEnc w h => exact ⟨_, exec_sizeEnc w h s, writeSize_resultsOk _ _ ok⟩
  | hdrDec noOut =>
    obtain ⟨-, run⟩ | ⟨-, -, run⟩ | ⟨-, run⟩ := execHdrDec_cases noOut s
    · exact ⟨_, run, hdrFail_resultsOk ok⟩
    · exact ⟨_, run, hdrFail_resultsOk (s := logReads s s.bufBase [0, 1, 2]) ok⟩
    · exact ⟨_, run, hdrAcceptedState_resultsOk ok⟩
  | _ =>
    obtain ⟨szVal, szOvf⟩ := size nofun nofun
    obtain ⟨-, -, -, hdrOk, hdrCons⟩ := header nofun
    exact ⟨u, carried, by rwa [State.ResultsOk, szVal, szOvf, hdrOk, hdrCons]⟩

/-! ## Over a step -/

theorem CmdRun.keeps_widthsOk {w : Cmd} {s t : State} (ran : CmdRun w s t) (legal : s.params.Legal)
    (cursor : s.CursorOk) (ok : s.WidthsOk) : t.WidthsOk := by
  cases ran with
  | rejected _ => exact ok
  | @ran i t _ run =>
    obtain ⟨u, run', kept⟩ := exec_keeps_widthsOk i legal cursor ok
    obtain ⟨⟩ := run.symm.trans run'
    exact kept

theorem CmdRun.keeps_resultsOk {w : Cmd} {s t : State} (ran : CmdRun w s t) (ok : s.ResultsOk) : t.ResultsOk := by
  cases ran with
  | rejected _ => exact ok
  | @ran i t _ run =>
    obtain ⟨u, run', kept⟩ := exec_keeps_resultsOk i ok
    obtain ⟨⟩ := run.symm.trans run'
    exact kept

theorem CmdRun.requestsAtMost {w : Cmd} {s t : State} (ran : CmdRun w s t) : RequestsAtMost s t 8 := by
  cases ran with
  | rejected _ => exact .none rfl 8
  | ran _ run =>
    obtain ⟨base, is, few, portLog⟩ := requestsAtMost_of_exec run
    exact ⟨base, is, few.trans (maxRequests_le _), portLog⟩

theorem StepRun.keeps_widthsOk {s t : State} (shape : StepRun s t) (legal : s.params.Legal) (cursor : s.CursorOk)
    (ok : s.WidthsOk) : t.WidthsOk := by
  cases shape with
  | idle | written => exact ok
  | reset =>
    have zero (k : Nat) : (0#32 : Word).toNat < 2 ^ k := Nat.two_pow_pos k
    exact ⟨zero _, zero _, zero _, zero _, zero _, zero _, zero _⟩
  | command _ ran => exact ran.keeps_widthsOk legal cursor ok

theorem StepRun.keeps_resultsOk {s t : State} (shape : StepRun s t) (ok : s.ResultsOk) : t.ResultsOk := by
  cases shape with
  | idle | written => exact ok
  | reset => exact ⟨fun _ => rfl, Bool.noConfusion, fun _ => rfl⟩
  | command _ ran => exact ran.keeps_resultsOk ok

/-- Only the host writes memory, and each of its writes keeps the form and the address space. -/
theorem StepRun.keeps_memoryOk {s t : State} (shape : StepRun s t) (ok : s.MemoryOk) : t.MemoryOk := by
  cases shape with
  | idle | reset => exact ok
  | written => exact hostWrite_ok _ ok
  | @command w ws rest t _ ran =>
    have same := ran.sameSurroundings
    rw [State.MemoryOk, endCmd_mem, endCmd_params, same.params, same.mem]
    exact hostWrites_ok ws ok

/-- A command ends with no write under way, and its record starts empty. -/
theorem StepRun.keeps_portOk {s t : State} (shape : StepRun s t) (ok : s.PortOk) : t.PortOk := by
  cases shape with
  | idle | written => exact ok
  | reset => exact ⟨rfl, Nat.zero_le 8, fun a requested => absurd requested List.not_mem_nil⟩
  | @command w ws rest t _ ran =>
    have inSpace := ran.requestsAtMost.lt rfl
    rw [← ran.sameSurroundings.params] at inSpace
    exact ⟨rfl, ran.requestsAtMost.length_le rfl, inSpace⟩

/-- Settles O49: the seven parts of the invariant, each kept by what a step can do to its registers. -/
theorem stepKeepsInvariant : Obligations.StepKeepsInvariant := by
  rintro s t ⟨legal, widths, cursor, error, results, memory, port⟩ run
  have shape := stepRun_of_step run
  have effect := stepEffect_of_step run
  refine ⟨?legal, shape.keeps_widthsOk legal cursor widths, effect.cursorChange.keeps_cursorOk cursor,
    effect.errorChange.keeps_errorOk error, shape.keeps_resultsOk results, shape.keeps_memoryOk memory,
    shape.keeps_portOk port⟩
  case legal => rwa [shape.params]

end Sys2Proof.Machine
end

section
/-! The register read port (10_state.md R40, R41): the registers of the map, zero-extended, and the bits of STATUS. -/

namespace Sys2Proof.Machine

/-- Each bit of STATUS in its field; the fields end at bit 11. -/
theorem getLsbD_statusWord (s : State) (j : Nat) : (statusWord s).getLsbD j =
    (if j = 0 then s.err
     else if 4 ≤ j ∧ j ≤ 7 then s.errCode.getLsbD (j - 4)
     else if j = 8 then s.curValid
     else if j = 9 then s.bufNull
     else if j = 10 then s.szOvf
     else if j = 11 then s.hdrOk
     else false) := by
  by_cases inField : j < 12
  · interval_cases j <;>
      simp only [statusWord, BitVec.getLsbD_append, BitVec.getLsbD_ofBool, BitVec.getLsbD_zero] <;> simp
  · obtain ⟨k, rfl⟩ : ∃ k, j = k + 12 := ⟨j - 12, by omega⟩
    simp only [statusWord, BitVec.getLsbD_append, BitVec.getLsbD_ofBool, BitVec.getLsbD_zero]
    simp

theorem readPort_status (s : State) : readPort s 0x00#8 = statusWord s := rfl

/-- Settles O23: index 0 of the map is STATUS. -/
theorem statusBits : Obligations.StatusBits := by
  intro s j
  rw [readPort_status, getLsbD_statusWord]

/-- `PARAMS` keeps both parameters whole: a legal width fits six bits. -/
theorem paramsWord_toNat {s : State} (legal : s.params.Legal) :
    (paramsWord s).toNat = s.params.addrW * 256 + s.params.sizeW := by
  obtain ⟨-, sizeW, -, addrW⟩ := legal
  have fitsAddr : s.params.addrW % 2 ^ 6 = s.params.addrW := Nat.mod_eq_of_lt (by omega)
  have fitsSize : s.params.sizeW % 2 ^ 6 = s.params.sizeW := Nat.mod_eq_of_lt (by omega)
  have size8 : s.params.sizeW < 2 ^ 8 := by omega
  simp only [paramsWord, BitVec.toNat_append, BitVec.toNat_ofNat, fitsAddr, fitsSize, Nat.zero_mod, Nat.zero_shiftLeft,
    Nat.zero_or, Nat.or_zero, ← Nat.shiftLeft_add]
  rw [← Nat.shiftLeft_add_eq_or_of_lt size8, Nat.shiftLeft_eq]

/-- Past the last register of the map the port reads 0. -/
theorem readPort_unmapped (s : State) {x : BitVec 8} (unmapped : 0x0E ≤ x.toNat) : readPort s x = 0#32 := by
  have past {k : BitVec 8} (mapped : k.toNat < 0x0E) : x ≠ k := by
    rintro rfl
    exact absurd unmapped mapped.not_ge
  simp (disch := decide) only [readPort, past, if_false]

/-- Settles O22: registers inside their widths are read whole, narrow ones zero-extended. -/
theorem registerReadPort : Obligations.RegisterReadPort := by
  rintro s legal ⟨bufBase, curBase, bufLen, curLen, curByte, szVal, hdrCons⟩
  have zeroExtended {k : Nat} (v : BitVec k) (narrow : k ≤ 32) : (v.setWidth 32).toNat = v.toNat :=
    BitVec.toNat_setWidth_of_le narrow
  exact ⟨rfl, lowBits_toNat_of_lt szVal, zeroExtended s.hdrFlags (by decide), zeroExtended s.hdrWidth (by decide),
    zeroExtended s.hdrHeight (by decide), lowBits_toNat_of_lt hdrCons, lowBits_toNat_of_lt bufBase,
    lowBits_toNat_of_lt bufLen, lowBits_toNat_of_lt curBase, lowBits_toNat_of_lt curLen, lowBits_toNat_of_lt curByte,
    zeroExtended s.curBit (by decide), paramsWord_toNat legal, fun _ => readPort_unmapped s⟩

end Sys2Proof.Machine
end

section
/-! The exits of HDR_DEC and CUR_READ that read no field (42_header.md R131; 41_cursor.md R113). -/

namespace Sys2Proof.Machine

/-- A header with another signature fails after its three bytes (R131). -/
theorem exec_hdrDec_of_mismatch {s : State} {noOut : Bool}
    (passed : ¬ (s.bufNull = true ∨ noOut = true ∨ s.bufLen.toNat < 8)) (mismatch : ¬ HdrAccepts s noOut) :
    exec (.hdrDec noOut) s = .next (hdrFail (logReads s s.bufBase [0, 1, 2])) := by
  obtain ⟨refused, -⟩ | ⟨-, -, run⟩ | ⟨accepts, -⟩ := execHdrDec_cases noOut s
  · exact absurd refused passed
  · exact run
  · exact absurd accepts mismatch

/-- Settles O45: the two failing exits, with the requests of the three signature bytes after the second. -/
theorem hdrDecFailures : Obligations.HdrDecFailures := by
  refine ⟨fun _ _ refused => exec_hdrDec_of_refused refused, fun s o buffer out long mismatch => ?_⟩
  refine exec_hdrDec_of_mismatch ?passed mismatch
  rw [buffer, out]
  simpa using long

/-- Settles O35: the check of the cursor comes first, and a degenerate count writes RES only. -/
theorem curReadWithoutField : Obligations.CurReadWithoutField := by
  refine ⟨fun _ n noCursor => exec_curRead_of_noCursor n noCursor, fun s n valid degenerate => ?_⟩
  refine exec_curRead_of_degenerate valid ?notReads
  rintro ⟨atLeastOne, atMost⟩
  obtain rfl | above := degenerate
  · exact absurd atLeastOne (by decide)
  · exact absurd atMost above.not_ge

end Sys2Proof.Machine
end

section
/-! What no command reads (10_state.md R25, R36; 60_exceptions.md R153): the error state, the two sentinel bits, and,
for the reads of an active cursor, the buffer description. -/

namespace Sys2Proof.Machine

/-! ## The error state and the sentinel bits (R36, R153) -/

/-- `s` with other values of ERR, ERRCODE, SZ_OVF and HDR_OK. -/
def withStatus (err : Bool) (errCode : BitVec 4) (szOvf hdrOk : Bool) (s : State) : State :=
  { s with err := err, errCode := errCode, szOvf := szOvf, hdrOk := hdrOk }

/-- What a command does to ERR, ERRCODE, SZ_OVF and HDR_OK; each sentinel bit depends on its own value at most. -/
structure StatusAction where
  err : Bool → Bool
  errCode : Bool → BitVec 4 → BitVec 4
  szOvf : Bool → Bool
  hdrOk : Bool → Bool

/-- All four carried over. -/
def StatusAction.keep : StatusAction where
  err b := b
  errCode _ c := c
  szOvf a := a
  hdrOk a := a

/-- A command error is raised (R152). -/
def StatusAction.raise (e : CmdError) : StatusAction :=
  { StatusAction.keep with err := fun _ => true, errCode := fun b c => if b then c else errCodeOf e }

/-- The error state is cleared (R140). -/
def StatusAction.clear : StatusAction :=
  { StatusAction.keep with err := fun _ => false, errCode := fun _ _ => 0#4 }

/-- A size result writes SZ_OVF (R100). -/
def StatusAction.size (ovf : Bool) : StatusAction := { StatusAction.keep with szOvf := fun _ => ovf }

/-- HDR_DEC writes HDR_OK (R131). -/
def StatusAction.header (ok : Bool) : StatusAction := { StatusAction.keep with hdrOk := fun _ => ok }

/-- Whatever the four are, the command does the same to all the rest, and one action to them. -/
def ActsOnStatus (i : Instr) (s : State) (f : StatusAction) : Prop :=
  ∃ t, ∀ b c a h, exec i (withStatus b c a h s) =
    .next (withStatus (f.err b) (f.errCode b c) (f.szOvf a) (f.hdrOk h) t)

theorem ownError_actsOnStatus {i : Instr} {s : State} {e : CmdError} (own : OwnError s i e) :
    ActsOnStatus i s (.raise e) := by
  refine ⟨s, fun b c a h => ?_⟩
  have own' : OwnError (withStatus b c a h s) i e := by
    cases own with
    | readNoCursor n noCursor => exact .readNoCursor n noCursor
    | foffNoCursor noCursor => exact .foffNoCursor noCursor
    | initNoBuffer noBuffer => exact .initNoBuffer noBuffer
  exact own'.exec_eq

/-- A size result depends on the parameters, which are no status. -/
theorem writeSize_actsOnStatus {i : Instr} {v : Nat}
    (run : ∀ u, exec i u = .next (writeSize (sizeOverflows u.params v) v u)) (s : State) :
    ∃ f, ActsOnStatus i s f :=
  ⟨.size (sizeOverflows s.params v), writeSize (sizeOverflows s.params v) v s,
    fun b c a h => run (withStatus b c a h s)⟩

theorem curInit_actsOnStatus (s : State) : ∃ f, ActsOnStatus .curInit s f := by
  obtain ⟨noBuffer, -⟩ | ⟨buffer, -⟩ := execCurInit_cases s
  · exact ⟨_, ownError_actsOnStatus (.initNoBuffer noBuffer)⟩
  · exact ⟨.keep, { s with
      curBase := s.bufBase, curLen := s.bufLen, curByte := 0#32, curBit := 0#3, curValid := true },
      fun b c a h => exec_curInit_of_buffer (s := withStatus b c a h s) buffer⟩

theorem curRead_actsOnStatus (n : BitVec 6) (s : State) : ∃ f, ActsOnStatus (.curRead n) s f := by
  obtain ⟨noCursor, -⟩ | ⟨valid, degenerate, -⟩ | ⟨valid, reads, -⟩ := execCurRead_cases n s
  · exact ⟨_, ownError_actsOnStatus (.readNoCursor n noCursor)⟩
  · exact ⟨.keep, { s with res := 0#32 },
      fun b c a h => exec_curRead_of_degenerate (s := withStatus b c a h s) valid degenerate⟩
  · exact ⟨.keep, fieldReadState n s, fun b c a h => exec_curRead_of_reads (s := withStatus b c a h s) valid reads⟩

theorem curFoff_actsOnStatus (s : State) : ∃ f, ActsOnStatus .curFoff s f := by
  obtain ⟨noCursor, -⟩ | ⟨valid, -⟩ := execCurFoff_cases s
  · exact ⟨_, ownError_actsOnStatus (.foffNoCursor noCursor)⟩
  · exact ⟨.keep, { s with res := BitVec.ofNat 32 (fullOffset s.curByte.toNat s.curBit.toNat) },
      fun b c a h => exec_curFoff_of_cursor (s := withStatus b c a h s) valid⟩

theorem hdrDec_actsOnStatus (noOut : Bool) (s : State) : ∃ f, ActsOnStatus (.hdrDec noOut) s f := by
  obtain ⟨refused, -⟩ | ⟨passed, mismatch, -⟩ | ⟨accepts, -⟩ := execHdrDec_cases noOut s
  · exact ⟨.header false, hdrFail s, fun b c a h => exec_hdrDec_of_refused (s := withStatus b c a h s) refused⟩
  · exact ⟨.header false, hdrFail (logReads s s.bufBase [0, 1, 2]),
      fun b c a h => exec_hdrDec_of_mismatch (s := withStatus b c a h s) passed mismatch⟩
  · exact ⟨.header true, hdrAcceptedState s,
      fun b c a h => exec_hdrDec_of_accepts (s := withStatus b c a h s) accepts⟩

/-- The checks of a command look at BUF_NULL, BUF_LEN, CUR_VALID and memory, so that its exit is the same under every
status. -/
theorem exec_actsOnStatus (i : Instr) (s : State) : ∃ f, ActsOnStatus i s f := by
  cases i with
  | clrErr => exact ⟨.clear, s, fun b c a h => rfl⟩
  | sizeDec w h => exact writeSize_actsOnStatus (exec_sizeDec w h) s
  | sizeEnc w h => exact writeSize_actsOnStatus (exec_sizeEnc w h) s
  | bufBase base null =>
    exact ⟨.keep, { s with bufBase := lowBits s.params.addrW base.toNat, bufNull := null }, fun b c a h => rfl⟩
  | bufLen len => exact ⟨.keep, { s with bufLen := lowBits s.params.sizeW len.toNat }, fun b c a h => rfl⟩
  | curInit => exact curInit_actsOnStatus s
  | curRead n => exact curRead_actsOnStatus n s
  | curFoff => exact curFoff_actsOnStatus s
  | hdrDec noOut => exact hdrDec_actsOnStatus noOut s

/-- With ERR = 1 every command but CLR_ERR keeps the error state: raising keeps the first code. -/
theorem CmdEffect.keeps_error {i : Instr} {s t : State} (effect : CmdEffect s i t) (set : s.err = true)
    (notClear : i ≠ .clrErr) : t.err = true ∧ t.errCode = s.errCode := by
  cases effect with
  | elsewhere _ error => exact ⟨error.err.trans set, error.errCode⟩
  | cleared => exact absurd rfl notClear
  | raised _ => exact ⟨rfl, if_pos set⟩
  | cursorMade | fieldRead => exact ⟨set, rfl⟩

/-- Settles O27: one exit under every error state, the first code kept, and a next state from every step. -/
theorem errorDoesNotBlock : Obligations.ErrorDoesNotBlock := by
  refine ⟨fun i s b c => ?independent, fun i s set notClear => ?kept, everythingCompletes.2⟩
  case independent =>
    obtain ⟨f, t, run⟩ := exec_actsOnStatus i s
    exact ⟨_, _, run s.err s.errCode s.szOvf s.hdrOk, run b c s.szOvf s.hdrOk, rfl⟩
  case kept =>
    obtain ⟨t, run, effect⟩ := exec_cmdEffect i s
    exact ⟨t, run, effect.keeps_error set notClear⟩

/-- The overflow bit of a size result depends on the parameters and the operands. -/
theorem szOvf_eq_of_size {w h : BitVec 16} {i : Instr} {s s' t u : State}
    (size : i ∈ [Instr.sizeDec w h, .sizeEnc w h]) (run : exec i s = .next t) (run' : exec i s' = .next u)
    (params : s'.params = s.params) : u.szOvf = t.szOvf := by
  obtain rfl | rfl : i = .sizeDec w h ∨ i = .sizeEnc w h := by simpa using size
  case inl =>
    obtain ⟨⟩ := run.symm.trans (exec_sizeDec w h s)
    obtain ⟨⟩ := run'.symm.trans (exec_sizeDec w h s')
    simp only [writeSize_szOvf, params]
  case inr =>
    obtain ⟨⟩ := run.symm.trans (exec_sizeEnc w h s)
    obtain ⟨⟩ := run'.symm.trans (exec_sizeEnc w h s')
    simp only [writeSize_szOvf, params]

/-- A command other than the size commands carries SZ_OVF over (R41). -/
theorem szOvf_of_notSize {i : Instr} {s t : State} (notSize : ∀ w h, i ∉ [Instr.sizeDec w h, .sizeEnc w h])
    (run : exec i s = .next t) : t.szOvf = s.szOvf := by
  obtain ⟨u, run', -, -, -, -, -, size, -⟩ := registerWriters i s
  obtain ⟨⟩ := run.symm.trans run'
  simp only [List.mem_cons, List.not_mem_nil, or_false, not_or] at notSize
  exact (size (fun w h => (notSize w h).1) (fun w h => (notSize w h).2)).2

/-- A command other than HDR_DEC carries HDR_OK over (R41). -/
theorem hdrOk_of_notHdr {i : Instr} {s t : State} (notHdr : ∀ o, i ≠ .hdrDec o) (run : exec i s = .next t) :
    t.hdrOk = s.hdrOk := by
  obtain ⟨u, run', -, -, -, -, -, -, header, -⟩ := registerWriters i s
  obtain ⟨⟩ := run.symm.trans run'
  obtain ⟨-, -, -, hdrOk, -⟩ := header notHdr
  exact hdrOk

/-- HDR_OK after HDR_DEC is whether the header is accepted (R135). -/
theorem hdrOk_iff_of_hdrDec {noOut : Bool} {s t : State} (run : exec (.hdrDec noOut) s = .next t) :
    t.hdrOk = true ↔ HdrAccepts s noOut := by
  obtain ⟨u, run', verdict⟩ := exec_hdrDec_hdrOk_iff noOut s
  obtain ⟨⟩ := run.symm.trans run'
  exact verdict

/-- Settles O53: one exit under all values of the two bits; each bit is its writer's result, or is carried over. -/
theorem noCommandReadsSentinels : Obligations.NoCommandReadsSentinels := by
  intro i s a b
  obtain ⟨f, t, run⟩ := exec_actsOnStatus i s
  have before := run s.err s.errCode s.szOvf s.hdrOk
  have after := run s.err s.errCode a b
  refine ⟨_, _, before, after, rfl, fun w h size => szOvf_eq_of_size size before after rfl,
    fun notSize => ⟨szOvf_of_notSize notSize before, szOvf_of_notSize notSize after⟩, ?header,
    fun notHdr => ⟨hdrOk_of_notHdr notHdr before, hdrOk_of_notHdr notHdr after⟩⟩
  case header =>
    rintro noOut rfl
    exact Bool.eq_iff_iff.mpr ((hdrOk_iff_of_hdrDec after).trans (hdrOk_iff_of_hdrDec before).symm)

/-! ## The buffer description and an active cursor (R25) -/

/-- `s` with another buffer description. -/
def withBuffer (base : Word) (null : Bool) (len : Word) (s : State) : State :=
  { s with bufBase := base, bufNull := null, bufLen := len }

/-- CUR_READ takes its bytes at CUR_BASE, up to CUR_LEN. -/
theorem curRead_ignoresBuffer (n : BitVec 6) (s : State) :
    ∃ u, exec (.curRead n) s = .next u ∧
      ∀ b null len, exec (.curRead n) (withBuffer b null len s) = .next (withBuffer b null len u) := by
  obtain ⟨noCursor, run⟩ | ⟨valid, degenerate, run⟩ | ⟨valid, reads, run⟩ := execCurRead_cases n s
  · exact ⟨_, run, fun b null len => exec_curRead_of_noCursor (s := withBuffer b null len s) n noCursor⟩
  · exact ⟨_, run, fun b null len => exec_curRead_of_degenerate (s := withBuffer b null len s) valid degenerate⟩
  · exact ⟨_, run, fun b null len => exec_curRead_of_reads (s := withBuffer b null len s) valid reads⟩

/-- Settles O43: BUF_BASE and BUF_LEN write the buffer description only. -/
theorem cursorIsSnapshot : Obligations.CursorIsSnapshot := by
  intro s b len null n i describes
  obtain ⟨u, run, same⟩ := curRead_ignoresBuffer n s
  obtain rfl | rfl : i = .bufBase b null ∨ i = .bufLen len := by simpa using describes
  case inl =>
    exact ⟨_, u, _, rfl, run, same (lowBits s.params.addrW b.toNat) null s.bufLen, rfl, rfl, rfl, rfl, rfl, rfl, rfl,
      rfl, rfl⟩
  case inr =>
    exact ⟨_, u, _, rfl, run, same s.bufBase s.bufNull (lowBits s.params.sizeW len.toNat), rfl, rfl, rfl, rfl, rfl, rfl,
      rfl, rfl, rfl⟩

end Sys2Proof.Machine
end

section
/-! A list of reads and the stream bits of its buffer (41_cursor.md R115, R118): the results determine the bits and the
bits determine the results. -/

namespace Sys2Proof.Machine

/-! ## One field and its stream bits -/

/-- Two fields of one length from one position are equal exactly when their stream bits are, since the closed form puts
each stream bit in a place of its own. -/
theorem ClosedForm.eq_iff {bit bit' : Nat → Bool} {P n : Nat} {r r' : Word} (closed : ClosedForm bit P n r)
    (closed' : ClosedForm bit' P n r') : r = r' ↔ ∀ q, P ≤ q → q < P + n → bit q = bit' q := by
  obtain ⟨field, above⟩ := closed
  constructor
  · rintro rfl q atLeast below
    rw [← field q atLeast below, closed'.1 q atLeast below]
  · intro same
    have sameClosed : ClosedForm bit' P n r :=
      ⟨fun q atLeast below => (field q atLeast below).trans (same q atLeast below), above⟩
    exact sameClosed.unique closed'

/-- A valid cursor at bit `P` with `room` more bits in its buffer. -/
structure CursorAt (s : State) (P room : Nat) : Prop where
  curValid : s.curValid = true
  position : curPos s = P
  inside : P + room ≤ curBits s

/-- From `s` to `t` a whole field of `n` bits at position `P` was read from the same stream. -/
structure FieldTaken (s t : State) (P n : Nat) : Prop where
  stream : streamBit t = streamBit s
  closed : ClosedForm (streamBit s) P n t.res

theorem exec_curRead_fieldTaken {s : State} {n : BitVec 6} {P room : Nat} (reads : Reads n)
    (start : CursorAt s P (n.toNat + room)) :
    ∃ t, exec (.curRead n) s = .next t ∧ FieldTaken s t P n.toNat ∧ CursorAt t (P + n.toNat) room := by
  obtain ⟨valid, rfl, inside⟩ := start
  have fieldInside : curPos s + n.toNat ≤ curBits s := by omega
  obtain ⟨r, run, closed⟩ := curReadClosedForm s n valid reads fieldInside
  exact ⟨_, run, ⟨rfl, closed⟩, valid, curPos_afterRead _ _ fieldInside, by rw [Nat.add_assoc]; exact inside⟩

/-! ## Two sequences of results -/

/-- The reads of the list answer, and give the same results from both states. -/
def SameResults (ns : List (BitVec 6)) (s t : State) : Prop :=
  ∃ rs, readResults ns s = some rs ∧ readResults ns t = some rs

theorem readResults_cons {n : BitVec 6} {s u : State} (ns : List (BitVec 6)) (run : exec (.curRead n) s = .next u) :
    readResults (n :: ns) s = (readResults ns u).map (fun rs => u.res :: rs) := by
  rw [readResults, run]
  rfl

theorem sameResults_cons_iff {n : BitVec 6} {s t u v : State} (ns : List (BitVec 6))
    (run : exec (.curRead n) s = .next u) (run' : exec (.curRead n) t = .next v) :
    SameResults (n :: ns) s t ↔ u.res = v.res ∧ SameResults ns u v := by
  simp only [SameResults, readResults_cons ns run, readResults_cons ns run', Option.map_eq_some_iff]
  constructor
  · rintro ⟨_, ⟨rs, answer, rfl⟩, rs', answer', same⟩
    obtain ⟨res, rfl⟩ := List.cons.inj same
    exact ⟨res.symm, rs', answer, answer'⟩
  · rintro ⟨res, rs, answer, answer'⟩
    exact ⟨_, ⟨rs, answer, rfl⟩, rs, answer', by rw [res]⟩

/-- Agreement on two ranges of stream bits, one after the other. -/
theorem forall_range_add_iff {agrees : Nat → Prop} (P n m : Nat) :
    (∀ q, P ≤ q → q < P + (n + m) → agrees q) ↔
      (∀ q, P ≤ q → q < P + n → agrees q) ∧ ∀ q, P + n ≤ q → q < P + n + m → agrees q := by
  constructor
  · intro all
    exact ⟨fun q atLeast below => all q atLeast (by omega), fun q atLeast below => all q (by omega) (by omega)⟩
  · rintro ⟨first, next⟩ q atLeast below
    by_cases inFirst : q < P + n
    · exact first q atLeast inFirst
    · exact next q (by omega) (by omega)

theorem totalBits_cons_of_reads {n : BitVec 6} (ns : List (BitVec 6)) (reads : Reads n) :
    totalBits (n :: ns) = n.toNat + totalBits ns := by
  rw [totalBits_cons, bitsAsked, if_pos reads]

/-- Reads that fit both buffers have the same results exactly when the buffers agree on the bits read. -/
theorem sameResults_iff {ns : List (BitVec 6)} {s t : State} {P : Nat} (allRead : ∀ n ∈ ns, Reads n)
    (start : CursorAt s P (totalBits ns)) (start' : CursorAt t P (totalBits ns)) :
    SameResults ns s t ↔ ∀ q, P ≤ q → q < P + totalBits ns → streamBit s q = streamBit t q := by
  induction ns generalizing s t P with
  | nil => exact iff_of_true ⟨[], rfl, rfl⟩ fun q atLeast below => absurd below atLeast.not_gt
  | cons n ns ih =>
    obtain ⟨reads, restRead⟩ := List.forall_mem_cons.mp allRead
    rw [totalBits_cons_of_reads ns reads] at start start' ⊢
    obtain ⟨u, run, taken, next⟩ := exec_curRead_fieldTaken reads start
    obtain ⟨v, run', taken', next'⟩ := exec_curRead_fieldTaken reads start'
    rw [sameResults_cons_iff ns run run', taken.closed.eq_iff taken'.closed, ih restRead next next', taken.stream,
      taken'.stream, ← forall_range_add_iff]

/-- Settles O41: both cursors are fresh, so that the bits read start at 0. -/
theorem readsRoundTrip : Obligations.ReadsRoundTrip := by
  intro s t ns allRead valid valid' fresh fresh' fits fits'
  have start : CursorAt s 0 (totalBits ns) := ⟨valid, fresh, by rwa [Nat.zero_add]⟩
  have start' : CursorAt t 0 (totalBits ns) := ⟨valid', fresh', by rwa [Nat.zero_add]⟩
  simpa only [SameResults, Nat.zero_le, true_imp_iff, Nat.zero_add] using sameResults_iff allRead start start'

end Sys2Proof.Machine
end
